-- ==== Sys2Proof/Word.lean ====
section
/-! DEFINITION. The widths the spec gives its values (00_scope.md R4, R6; 30_encoding.md R46, R47). All values are unsigned. -/

namespace Sys2Proof

/-- A 4-bit slice of an instruction word (R46). -/
abbrev Nibble := BitVec 4

/-- One memory cell, one general register, one timer, an immediate `nn` (R4). -/
abbrev Byte := BitVec 8

/-- A 12-bit immediate address `nnn` (R47). -/
abbrev Addr12 := BitVec 12

/-- An instruction word, `I`, `pc`, a stack entry, the halt value (R4). -/
abbrev Word := BitVec 16

/-- The number of a general register, 0 to 15 (R11). -/
abbrev Reg := Fin 16

/-- The number of a logical key, 0 to 15 (R20). -/
abbrev Key := Fin 16

/-- VF, the register that doubles as the flag (R12). -/
abbrev Reg.flag : Reg := 15

end Sys2Proof
end

