-- ==== Sys2Proof/Config.lean ====
section
/-! DEFINITION. The fixed sizes of 00_scope.md R4 and the free values of 00_scope.md R5. -/

namespace Sys2Proof

/-- `MEM_SIZE`: 4096 addressable bytes (R4, R30). -/
def Config.memSize : Nat := 4096

/-- `PC_RESET`: the constant entry point (R4, R25). -/
def Config.pcReset : Word := 0x0200#16

/-- `STACK_DEPTH`: saved program counters (R4, R16). -/
def Config.stackDepth : Nat := 16

/-- Bytes of one glyph of the font table (R4, R92). -/
def Config.glyphBytes : Nat := 5

/-- The random byte `rnd` (R5, R87; 93_implementation_defined.md K13): a FREE VALUE, applied to the
number of the draw. It has no body, so nothing can be proved of its values (log 1). -/
opaque Config.rnd : Nat → Byte

/-- `KEYWAIT_PICK` (R5, R112; 92_eei_decisions.md D9, K14): a FREE VALUE, applied to the number of the
draw and the key state; `State.pickKey` reduces it to a place in the list of pressed keys, so every
pressed key may be the one that LD Vx,K reports (log 2). -/
opaque Config.keyPick : Nat → Vector Bool 16 → Nat

end Sys2Proof
end

