-- ==== Sys2Proof/Machine/State.lean ====
section
/-! DEFINITION. The architectural state (10_state.md R10), the state a run carries, the reasons a run can
stop, and the state after reset (R25). -/

namespace Sys2Proof.Machine

/-- Memory (20_memory.md R30): the cells that differ from what an unlisted address reads as, addresses
strictly rising (`Memory.wf`). -/
abbrev Memory := List Host.Cell

/-- The display buffer (R18): 32 rows of 64 one-bit cells; bit `col` of row `row` is the cell at column
`col`, row `row`. Read and written through `Display.cell` and `Display.flip` only (log 6). -/
abbrev Display := Vector (BitVec 64) 32

/-- The halt causes (60_exceptions.md R121); their 3-bit codes are `HaltCause.code`. -/
inductive HaltCause where
  | unknownOpcode
  | stackOverflow
  | stackUnderflow
  | addressRange
  | keyIndexRange
  deriving DecidableEq, Repr

/-- The architectural state: exactly the fifteen rows of R10's table. -/
structure Arch where
  /-- 4096 bytes -/
  mem : Memory
  /-- V0 to VF (R11) -/
  V : Vector Byte 16
  /-- the index register, all 16 bits state (R13) -/
  I : Word
  /-- the program counter (R14) -/
  pc : Word
  /-- the saved program counters, live and stale (R16) -/
  stack : Vector Word 16
  /-- the depth of the call stack, 0 to 16 (R16, log 7) -/
  sp : Fin 17
  /-- the delay timer (R17) -/
  delay : Byte
  /-- the sound timer (R17) -/
  sound : Byte
  /-- the display buffer (R18) -/
  disp : Display
  /-- the dirty flag `needs_redraw` (R19) -/
  redraw : Bool
  /-- the key state (R20) -/
  key : Vector Bool 16
  /-- the word most recently fetched (R21) -/
  opcode : Word
  /-- the halt flag (R22) -/
  halted : Bool
  /-- the diagnostic, kind: the spec's `halt_cause` (R22) -/
  haltCause : BitVec 3
  /-- the diagnostic, value: the spec's `halt_value` (R22) -/
  haltValue : Word
  deriving DecidableEq, Repr

/-- What a run carries: the architectural state, and beside it the place in the stream of free inputs. The
spec gives a `step` its random byte, and LD Vx,K its pick, as inputs from outside (R9, R5); the step of this
model has the state as its one argument, so the wrapper says which inputs come next. -/
structure State extends Arch where
  /-- THE MODEL'S OWN, not the spec's: how many free values (`Config.rnd`, `Config.keyPick`) have been
  drawn; the next draw is applied to it (log 1, log 2, log 3) -/
  draws : Nat
  deriving DecidableEq, Repr

/-- Faults of the model: NONE. The spec describes the entry of every failure (60_exceptions.md R120,
R128), so a failing instruction answers a next state with `halted` set, and there is nothing that could
raise a fault. (log 5) -/
inductive Fault where
  deriving DecidableEq, Repr

/-- Refusals. -/
inductive Refusal where
  /-- Raised by `exec` alone, by an arm without a meaning; no arm of this model is without one. Safe: a
  refused run goes nowhere, so nothing false is provable of it. -/
  | notModelled (mnemonic : String)
  /-- Raised by `event` alone, never by an instruction: a `host_load` that breaks the host's duty of
  10_state.md R27 (after the first step, or at an address of 4096 or more), for which the spec has no
  transition (93_implementation_defined.md K25). Safe. (log 8) -/
  | hostDuty
  deriving DecidableEq, Repr

/-- What an instruction or a step answers. -/
abbrev Result := Host.Outcome State Fault Refusal

/-- The state right after reset (R25, 70_reset_and_hazards.md R145): all zero except `pc = 0x200`.
`draws` is the model's own; its value is a DESIGN CHOICE (log 3). -/
def State.reset : State where
  mem := []
  V := Vector.replicate 16 0
  I := 0
  pc := Config.pcReset
  stack := Vector.replicate 16 0
  sp := 0
  delay := 0
  sound := 0
  disp := Vector.replicate 32 0
  redraw := false
  key := Vector.replicate 16 false
  opcode := 0
  halted := false
  haltCause := 0
  haltValue := 0
  draws := 0

end Sys2Proof.Machine
end

