-- ==== Sys2Proof/Machine/Ops.lean ====
section
/-! DEFINITION. The named operations over memory, registers, stack, display and keys, and the halt. -/

namespace Sys2Proof.Machine

/-! ### Memory (20_memory.md) -/

/-- What an address that no cell lists reads as: 0, the reset contents of every byte (10_state.md R25, log 9). -/
def Memory.unlisted : Byte := 0

/-- The byte at an address (20_memory.md R37: the most recent write, the host's load, or 0). -/
def Memory.read : Memory → Nat → Byte
  | [], _ => Memory.unlisted
  | c :: m, a => if c.1 = a then c.2 else Memory.read m a

/-- Memory without a listed cell at `a`. -/
def Memory.erase (m : Memory) (a : Nat) : Memory := m.filter fun c => c.1 != a

/-- A cell put in front of the first cell with a higher address. -/
def Memory.insert (a : Nat) (v : Byte) : Memory → Memory
  | [] => [(a, v)]
  | c :: m => if a < c.1 then (a, v) :: c :: m else c :: Memory.insert a v m

/-- `mem[a] <- v`, keeping the canonical form. -/
def Memory.write (m : Memory) (a : Nat) (v : Byte) : Memory :=
  if v = Memory.unlisted then m.erase a else Memory.insert a v (m.erase a)

/-- The canonical form: addresses strictly rising, inside memory, no cell equal to what an unlisted
address reads as. -/
abbrev Memory.wf (m : Memory) : Prop :=
  m.Pairwise (fun c d => c.1 < d.1) ∧ ∀ c ∈ m, c.1 < Config.memSize ∧ c.2 ≠ Memory.unlisted

/-- The instruction fetch's access, big-endian: `(mem[a] << 8) | mem[a+1]` (20_memory.md R33). -/
def Memory.readWord (m : Memory) (a : Nat) : Word := m.read a ++ m.read (a + 1)

/-- Bytes stored one by one at ascending addresses (20_memory.md R35, R37). -/
def Memory.writeBytes (m : Memory) (a : Nat) : List Byte → Memory
  | [] => m
  | b :: bs => Memory.writeBytes (m.write a b) (a + 1) bs

/-- 20_memory.md R32: the lowest address beyond memory of the access set `a, …, a + n - 1`, if the set
leaves memory. Addresses are unbounded naturals; an empty set leaves nothing. -/
def accessFault (a n : Nat) : Option Nat :=
  if 1 ≤ n ∧ Config.memSize - 1 < a + n - 1 then some (max a Config.memSize) else none

/-! ### Registers -/

/-- `V[x]` (00_scope.md R8). -/
def State.reg (s : State) (x : Reg) : Byte := s.V[x.val]

/-- `V[x] <- v`. -/
def State.setReg (s : State) (x : Reg) (v : Byte) : State := { s with V := s.V.set x.val v }

/-- `V[k] <- f k` for the registers with a number below `n`. -/
def State.setRegsBelow (s : State) (n : Nat) (f : Nat → Byte) : State :=
  { s with V := Vector.ofFn fun k : Fin 16 => if k.val < n then f k.val else s.V[k.val] }

/-- `I <- v`. -/
def State.setIndex (s : State) (v : Word) : State := { s with I := v }

/-- `delay <- v`. -/
def State.setDelay (s : State) (v : Byte) : State := { s with delay := v }

/-- `sound <- v`. -/
def State.setSound (s : State) (v : Byte) : State := { s with sound := v }

/-- `mem <- m`. -/
def State.setMem (s : State) (m : Memory) : State := { s with mem := m }

/-- `pc <- (pc + k) mod 2^16` (10_state.md R15, 40_cycle_and_control_flow.md R61). -/
def State.advance (s : State) (k : Word) : State := { s with pc := s.pc + k }

/-- `pc <- target`. -/
def State.jump (s : State) (target : Word) : State := { s with pc := target }

/-- pc + 4 if the condition holds, else pc + 2 (R61). -/
def State.skipIf (s : State) (c : Bool) : State := s.advance (if c then 4 else 2)

/-- Every successful fetch writes `opcode` (10_state.md R21). -/
def State.latch (s : State) (w : Word) : State := { s with opcode := w }

/-- The next free value has been drawn (log 1, log 2). -/
def State.drawn (s : State) : State := { s with draws := s.draws + 1 }

/-! ### The call stack (10_state.md R16) -/

/-- `stack[sp] <- w; sp <- sp + 1`, or nothing where 16 entries are live. -/
def State.push? (s : State) (w : Word) : Option State :=
  if h : s.sp.val < 16 then
    some { s with stack := s.stack.set s.sp.val w, sp := ⟨s.sp.val + 1, by omega⟩ }
  else none

/-- `sp <- sp - 1` and the entry at the new sp, which keeps its value; nothing where the stack is
empty. -/
def State.pop? (s : State) : Option (State × Word) :=
  if _h : 0 < s.sp.val then
    some ({ s with sp := ⟨s.sp.val - 1, by omega⟩ }, s.stack[s.sp.val - 1]'(by omega))
  else none

/-! ### The display (10_state.md R18, 43_display.md R100) -/

/-- `disp[col][row]`. -/
def Display.cell (d : Display) (col : Fin 64) (row : Fin 32) : Bool := d[row.val].getLsbD col.val

/-- `disp[col][row] <- disp[col][row] ^ 1`. -/
def Display.flip (d : Display) (col : Fin 64) (row : Fin 32) : Display :=
  d.set row.val (d[row.val] ^^^ BitVec.twoPow 64 col.val)

/-- Every cell 0. -/
def Display.clear : Display := Vector.replicate 32 0

/-- The display buffer replaced, and the redraw flag set (10_state.md R19). -/
def State.paint (s : State) (d : Display) : State := { s with disp := d, redraw := true }

/-! ### The keys (10_state.md R20) -/

/-- The pressed keys, in rising order: `{ k in 0 .. 16 : key[k] = 1 }` (44_keys_and_timers.md R112). -/
def State.pressed (s : State) : List Key := (List.finRange 16).filter fun k => s.key[k.val]

/-- `pick(P)`, KEYWAIT_PICK: some member of the pressed keys, which one is free (log 2); nothing where
no key is pressed. -/
def State.pickKey (s : State) : Option Key :=
  s.pressed[Config.keyPick s.draws s.key % s.pressed.length]?

/-! ### The halt, the machine's one exceptional mechanism (60_exceptions.md R120 to R129) -/

/-- The 3-bit codes of R121; code 0 is None, the value while the core runs. -/
def HaltCause.code : HaltCause → BitVec 3
  | .unknownOpcode => 1
  | .stackOverflow => 2
  | .stackUnderflow => 3
  | .addressRange => 4
  | .keyIndexRange => 5

/-- Halt entry (R128): the three halt registers, nothing else; `pc` keeps addressing the instruction. -/
def State.takeHalt (s : State) (cause : HaltCause) (value : Nat) : State :=
  { s with halted := true, haltCause := cause.code, haltValue := BitVec.ofNat 16 value }

/-- `raise Halt(cause, value)` (00_scope.md R8): the whole remaining effect of the instruction. Where the
value is the opcode it is the state's `opcode` (log 12). -/
def raiseHalt (s : State) (cause : HaltCause) (value : Nat) : Result := .next (s.takeHalt cause value)

/-- The way out of a halt (R129): there is no return instruction; only the `reset` event clears
`halted`, and it puts everything to its reset value (70_reset_and_hazards.md R145). The model's own
draw counter goes on, so that the free values after a reset are new ones (log 3). -/
def State.resetEvent (s : State) : State := { State.reset with draws := s.draws }

/-- An instruction whose access set is `a, …, a + n - 1`: where the set leaves memory it performs no
access and no write and halts, else it does `k` (20_memory.md R32, 60_exceptions.md R125). -/
def withAccess (s : State) (a n : Nat) (k : Result) : Result :=
  match accessFault a n with
  | some bad => raiseHalt s .addressRange bad
  | none => k

end Sys2Proof.Machine
end

