-- ==== Sys2Proof/Machine/Flags.lean ====
section
/-! DEFINITION. VF, the machine's only flag (10_state.md R12): every flag computation the spec gives, on
unbounded naturals, and the write of a result with its flag (41_alu.md R75). -/

namespace Sys2Proof.Machine

/-- A flag as the value VF holds, 0 or 1 (R12). -/
def flagByte (b : Bool) : Byte := if b then 1 else 0

/-- Carry of `a + b`: the unbounded sum exceeds 255 (R82). -/
def carryOut (a b : Byte) : Bool := decide (255 < a.toNat + b.toNat)

/-- SUB's flag: 0 if `b > a`, else 1 (R83). -/
def noBorrow (a b : Byte) : Bool := !decide (a.toNat < b.toNat)

/-- SUBN's flag: 1 if `b > a` strictly, else 0 (R85; not the mirror of SUB, 93 K7). -/
def strictlyBelow (a b : Byte) : Bool := decide (a.toNat < b.toNat)

/-- SHR's flag: bit 0 before the shift (R84). -/
def lowBit (a : Byte) : Bool := a.getLsbD 0

/-- SHL's flag: bit 7 before the shift (R86). -/
def highBit (a : Byte) : Bool := a.getLsbD 7

/-- ADD I,Vx's flag: the unbounded sum exceeds 0xFFF (42_index_and_memory.md R91). -/
def beyondMemory (sum : Nat) : Bool := decide (0xFFF < sum)

/-- `V[0xF] <- flag`. -/
def State.setFlag (s : State) (b : Bool) : State := s.setReg Reg.flag (flagByte b)

/-- The result to `V[x]`, then the flag to VF, so that with x = F the flag is what remains (R75). -/
def State.setRegAndFlag (s : State) (x : Reg) (v : Byte) (b : Bool) : State :=
  (s.setReg x v).setFlag b

end Sys2Proof.Machine
end

