-- ==== Sys2Proof/Machine/Operands.lean ====
section
/-! DEFINITION. The operand forms: immediates, the one data addressing mode, derived operands
(30_encoding.md R47, 42_index_and_memory.md R92, R96). -/

namespace Sys2Proof.Machine

/-- `zext_16(nnn)`: an immediate address widened with zeros (R47). -/
def addrOperand (nnn : Addr12) : Word := nnn.setWidth 16

/-- The effective address `I + offset`: the full 16-bit `I`, the sum unbounded, never masked (R96). -/
def State.effAddr (s : State) (offset : Nat) : Nat := s.I.toNat + offset

/-- The address of the glyph of a value, `zext_16(V[x] * 5)`, the whole byte multiplied (R92). -/
def glyphAddr (v : Byte) : Word := BitVec.ofNat 16 (v.toNat * Config.glyphBytes)

/-- The three decimal digits of a byte, hundreds first (R93). -/
def bcdDigits (a : Byte) : List Byte :=
  [BitVec.ofNat 8 (a.toNat / 100), BitVec.ofNat 8 (a.toNat / 10 % 10), BitVec.ofNat 8 (a.toNat % 10)]

/-- The values of V0 to Vx in ascending order (R94). -/
def State.regsThrough (s : State) (x : Reg) : List Byte := s.V.toList.take (x.val + 1)

/-- The bytes of memory an instruction loads, register `k` from `I + k` (R95). -/
def State.byteAt (s : State) (offset : Nat) : Byte := s.mem.read (s.effAddr offset)

/-- The random byte of the step, a free value (41_alu.md R87, log 1). -/
def State.randomByte (s : State) : Byte := Config.rnd s.draws

end Sys2Proof.Machine
end

