-- ==== Sys2Proof/Machine/Alu.lean ====
section
/-! DEFINITION. The register file and ALU instructions (41_alu.md R75 to R87). Every operand is read from
the state before the instruction (R75); every one advances pc by 2. -/

namespace Sys2Proof.Machine

/-- `V[x] <- v; pc <- pc + 2`: the shape of the instructions without a flag. -/
def writeReg (s : State) (x : Reg) (v : Byte) : Result := .next ((s.setReg x v).advance 2)

/-- `V[x] <- v; V[0xF] <- flag; pc <- pc + 2`: the shape of the instructions with a flag. -/
def writeRegFlag (s : State) (x : Reg) (v : Byte) (b : Bool) : Result :=
  .next ((s.setRegAndFlag x v b).advance 2)

/-- LD Vx, nn (R76). -/
def execLdImm (x : Reg) (nn : Byte) (s : State) : Result := writeReg s x nn

/-- ADD Vx, nn (R77): no carry recorded anywhere. -/
def execAddImm (x : Reg) (nn : Byte) (s : State) : Result := writeReg s x (s.reg x + nn)

/-- LD Vx, Vy (R78). -/
def execLdReg (x y : Reg) (s : State) : Result := writeReg s x (s.reg y)

/-- OR Vx, Vy (R79). -/
def execOrReg (x y : Reg) (s : State) : Result := writeReg s x (s.reg x ||| s.reg y)

/-- AND Vx, Vy (R80). -/
def execAndReg (x y : Reg) (s : State) : Result := writeReg s x (s.reg x &&& s.reg y)

/-- XOR Vx, Vy (R81). -/
def execXorReg (x y : Reg) (s : State) : Result := writeReg s x (s.reg x ^^^ s.reg y)

/-- ADD Vx, Vy (R82). -/
def execAddReg (x y : Reg) (s : State) : Result :=
  writeRegFlag s x (s.reg x + s.reg y) (carryOut (s.reg x) (s.reg y))

/-- SUB Vx, Vy (R83). -/
def execSubReg (x y : Reg) (s : State) : Result :=
  writeRegFlag s x (s.reg x - s.reg y) (noBorrow (s.reg x) (s.reg y))

/-- SHR Vx (R84): logical, in place, `y` ignored. -/
def execShr (x : Reg) (s : State) : Result := writeRegFlag s x (s.reg x >>> 1) (lowBit (s.reg x))

/-- SUBN Vx, Vy (R85). -/
def execSubnReg (x y : Reg) (s : State) : Result :=
  writeRegFlag s x (s.reg y - s.reg x) (strictlyBelow (s.reg x) (s.reg y))

/-- SHL Vx (R86): in place, `y` ignored. -/
def execShl (x : Reg) (s : State) : Result := writeRegFlag s x (s.reg x <<< 1) (highBit (s.reg x))

/-- RND Vx, nn (R87): the free byte masked. -/
def execRnd (x : Reg) (nn : Byte) (s : State) : Result :=
  writeReg s.drawn x (s.randomByte &&& nn)

end Sys2Proof.Machine
end

