-- ==== Sys2Proof/Machine/ControlFlow.lean ====
section
/-! DEFINITION. Return, jump, call and the skips on registers (40_cycle_and_control_flow.md R63 to R69). -/

namespace Sys2Proof.Machine

/-- RET (R63): halts on an empty stack (60_exceptions.md R124). -/
def execRet (s : State) : Result :=
  match s.pop? with
  | none => raiseHalt s .stackUnderflow s.opcode.toNat
  | some (t, target) => .next (t.jump target)

/-- JP nnn (R64). -/
def execJp (nnn : Addr12) (s : State) : Result := .next (s.jump (addrOperand nnn))

/-- CALL nnn (R65): halts when 16 entries are live (60_exceptions.md R123). -/
def execCall (nnn : Addr12) (s : State) : Result :=
  match s.push? (s.pc + 2) with
  | none => raiseHalt s .stackOverflow s.opcode.toNat
  | some t => .next (t.jump (addrOperand nnn))

/-- SE Vx, nn (R66). -/
def execSeImm (x : Reg) (nn : Byte) (s : State) : Result := .next (s.skipIf (s.reg x == nn))

/-- SNE Vx, nn (R67). -/
def execSneImm (x : Reg) (nn : Byte) (s : State) : Result := .next (s.skipIf (s.reg x != nn))

/-- SE Vx, Vy (R68). -/
def execSeReg (x y : Reg) (s : State) : Result := .next (s.skipIf (s.reg x == s.reg y))

/-- SNE Vx, Vy (R69). -/
def execSneReg (x y : Reg) (s : State) : Result := .next (s.skipIf (s.reg x != s.reg y))

end Sys2Proof.Machine
end

