-- ==== Sys2Proof/Machine/IndexMemory.lean ====
section
/-! DEFINITION. The index register and memory instructions (42_index_and_memory.md R90 to R95). The range
check comes before every write (40_cycle_and_control_flow.md R62); none of them moves `I` as a side
effect. -/

namespace Sys2Proof.Machine

/-- LD I, nnn (R90). -/
def execLdIndex (nnn : Addr12) (s : State) : Result :=
  .next ((s.setIndex (addrOperand nnn)).advance 2)

/-- The unbounded sum of ADD I, Vx (R91). -/
def State.indexSum (s : State) (x : Reg) : Nat := s.I.toNat + (s.reg x).toNat

/-- ADD I, Vx (R91): the sum mod 2^16 to `I`, the flag of the unbounded sum to VF. -/
def execAddIndex (x : Reg) (s : State) : Result :=
  .next (((s.setIndex (BitVec.ofNat 16 (s.indexSum x))).setFlag (beyondMemory (s.indexSum x))).advance 2)

/-- LD F, Vx (R92). -/
def execLdFont (x : Reg) (s : State) : Result :=
  .next ((s.setIndex (glyphAddr (s.reg x))).advance 2)

/-- LD B, Vx (R93): hundreds, tens, ones at `I`, `I + 1`, `I + 2`. -/
def execLdBcd (x : Reg) (s : State) : Result :=
  withAccess s (s.effAddr 0) 3
    (.next ((s.setMem (s.mem.writeBytes (s.effAddr 0) (bcdDigits (s.reg x)))).advance 2))

/-- LD [I], Vx (R94): V0 to Vx to memory, register `k` at `I + k`. -/
def execDumpRegs (x : Reg) (s : State) : Result :=
  withAccess s (s.effAddr 0) (x.val + 1)
    (.next ((s.setMem (s.mem.writeBytes (s.effAddr 0) (s.regsThrough x))).advance 2))

/-- LD Vx, [I] (R95): memory to V0 to Vx, register `k` from `I + k`. -/
def execFillRegs (x : Reg) (s : State) : Result :=
  withAccess s (s.effAddr 0) (x.val + 1)
    (.next ((s.setRegsBelow (x.val + 1) s.byteAt).advance 2))

end Sys2Proof.Machine
end

