-- ==== Sys2Proof/Machine/KeysTimers.lean ====
section
/-! DEFINITION. The key and timer instructions (44_keys_and_timers.md R110 to R115), and the timer
decrement logic that the `tick` event triggers (60_exceptions.md R133, R134). -/

namespace Sys2Proof.Machine

/-- What SKP and SKNP share: the key numbered by the value `k`, or the halt on a value that is no key
number (60_exceptions.md R126). -/
def withKey (s : State) (k : Byte) (go : Bool → Result) : Result :=
  if h : k.toNat < 16 then go s.key[k.toNat] else raiseHalt s .keyIndexRange s.opcode.toNat

/-- SKP Vx (R110). -/
def execSkp (x : Reg) (s : State) : Result := withKey s (s.reg x) fun down => .next (s.skipIf down)

/-- SKNP Vx (R111). -/
def execSknp (x : Reg) (s : State) : Result := withKey s (s.reg x) fun down => .next (s.skipIf !down)

/-- LD Vx, K (R112): with no key pressed nothing is written and pc stays at this instruction. -/
def execLdKey (x : Reg) (s : State) : Result :=
  match s.pickKey with
  | none => .next s
  | some k => .next ((s.drawn.setReg x (BitVec.ofNat 8 k.val)).advance 2)

/-- LD Vx, DT (R113). -/
def execLdFromDelay (x : Reg) (s : State) : Result := .next ((s.setReg x s.delay).advance 2)

/-- LD DT, Vx (R114). -/
def execLdToDelay (x : Reg) (s : State) : Result := .next ((s.setDelay (s.reg x)).advance 2)

/-- LD ST, Vx (R115). -/
def execLdToSound (x : Reg) (s : State) : Result := .next ((s.setSound (s.reg x)).advance 2)

/-- A timer's decrement: by 1 when nonzero (60_exceptions.md R133). -/
def countDown (c : Byte) : Byte := if c = 0 then 0 else c - 1

/-- The `tick` event (R133): both timers, nothing else, in every state (R136). -/
def State.tick (s : State) : State := (s.setDelay (countDown s.delay)).setSound (countDown s.sound)

/-- The output `beep` of a `tick` of this state (R134): 1 when the decrement brings `sound` to 1. -/
def State.beep (s : State) : Bool := s.sound != 0 && countDown s.sound == 1

end Sys2Proof.Machine
end

