-- ==== Sys2Proof/Machine/Screen.lean ====
section
/-! DEFINITION. The sprite drawing unit and its collision detector (43_display.md R100 to R103). -/

namespace Sys2Proof.Machine

/-- The target cell's column, `(ox + c) mod 64` (R102). -/
def targetCol (ox c : Nat) : Fin 64 := Fin.ofNat 64 (ox + c)

/-- The target cell's row, `(oy + r) mod 32` (R102). -/
def targetRow (oy r : Nat) : Fin 32 := Fin.ofNat 32 (oy + r)

/-- One pixel: where bit `c` of the row byte, counted from the most significant bit, is set, the target
cell is XORed with 1, and a cell that was 1 is a collision. The pair is the display and the collision
so far. -/
def drawPixel (ox oy r : Nat) (b : Byte) (acc : Display × Bool) (c : Nat) : Display × Bool :=
  if b.getLsbD (7 - c) then
    (acc.1.flip (targetCol ox c) (targetRow oy r),
      acc.2 || acc.1.cell (targetCol ox c) (targetRow oy r))
  else acc

/-- One row of the sprite: its 8 columns, left to right. -/
def drawRow (ox oy r : Nat) (b : Byte) (acc : Display × Bool) : Display × Bool :=
  (List.range 8).foldl (drawPixel ox oy r b) acc

/-- The whole sprite: `n` rows, top to bottom, row `r` from `mem[addr + r]`. -/
def drawSprite (m : Memory) (addr ox oy n : Nat) (d : Display) : Display × Bool :=
  (List.range n).foldl (fun acc r => drawRow ox oy r (m.read (addr + r)) acc) (d, false)

/-- CLS (R101): `redraw` is set whether or not a cell changed (92_eei_decisions.md D23). -/
def execCls (s : State) : Result := .next ((s.paint Display.clear).advance 2)

/-- The display and the collision after the sprite of DRW Vx, Vy, n: the origin is read from the state
before the instruction, so before VF is reset (R103 item 5). -/
def State.sprite (s : State) (x y : Reg) (n : Nibble) : Display × Bool :=
  drawSprite s.mem (s.effAddr 0) (s.reg x).toNat (s.reg y).toNat n.toNat s.disp

/-- DRW Vx, Vy, n (R102); n = 0 draws no row and reads no byte (R103 item 4). -/
def execDrw (x y : Reg) (n : Nibble) (s : State) : Result :=
  withAccess s (s.effAddr 0) n.toNat
    (.next (((s.paint (s.sprite x y n).1).setFlag (s.sprite x y n).2).advance 2))

end Sys2Proof.Machine
end

