-- ==== Sys2Proof/Syntax.lean ====
section
/-! DEFINITION. The 33 instructions of the opcode map (30_encoding.md R49), one constructor a row, in
the map's order. A field's type is the field's width (R47), so a term of `Instr` has no operand outside
its range. -/

namespace Sys2Proof

inductive Instr where
  /-- CLS (43_display.md R101) -/
  | cls
  /-- RET (40_cycle_and_control_flow.md R63) -/
  | ret
  /-- JP nnn (R64) -/
  | jp (nnn : Addr12)
  /-- CALL nnn (R65) -/
  | call (nnn : Addr12)
  /-- SE Vx, nn (R66) -/
  | seImm (x : Reg) (nn : Byte)
  /-- SNE Vx, nn (R67) -/
  | sneImm (x : Reg) (nn : Byte)
  /-- SE Vx, Vy (R68) -/
  | seReg (x y : Reg)
  /-- SNE Vx, Vy (R69) -/
  | sneReg (x y : Reg)
  /-- LD Vx, nn (41_alu.md R76) -/
  | ldImm (x : Reg) (nn : Byte)
  /-- ADD Vx, nn (R77) -/
  | addImm (x : Reg) (nn : Byte)
  /-- LD Vx, Vy (R78) -/
  | ldReg (x y : Reg)
  /-- OR Vx, Vy (R79) -/
  | orReg (x y : Reg)
  /-- AND Vx, Vy (R80) -/
  | andReg (x y : Reg)
  /-- XOR Vx, Vy (R81) -/
  | xorReg (x y : Reg)
  /-- ADD Vx, Vy (R82) -/
  | addReg (x y : Reg)
  /-- SUB Vx, Vy (R83) -/
  | subReg (x y : Reg)
  /-- SHR Vx (R84); `y` is the field of the word that the instruction ignores (30_encoding.md R52, log 11) -/
  | shr (x y : Reg)
  /-- SUBN Vx, Vy (R85) -/
  | subnReg (x y : Reg)
  /-- SHL Vx (R86); `y` as in `shr` -/
  | shl (x y : Reg)
  /-- LD I, nnn (42_index_and_memory.md R90) -/
  | ldIndex (nnn : Addr12)
  /-- RND Vx, nn (41_alu.md R87) -/
  | rnd (x : Reg) (nn : Byte)
  /-- SKP Vx (44_keys_and_timers.md R110) -/
  | skp (x : Reg)
  /-- SKNP Vx (R111) -/
  | sknp (x : Reg)
  /-- LD Vx, K (R112) -/
  | ldKey (x : Reg)
  /-- LD Vx, DT (R113) -/
  | ldFromDelay (x : Reg)
  /-- LD DT, Vx (R114) -/
  | ldToDelay (x : Reg)
  /-- LD ST, Vx (R115) -/
  | ldToSound (x : Reg)
  /-- ADD I, Vx (42_index_and_memory.md R91) -/
  | addIndex (x : Reg)
  /-- LD F, Vx (R92) -/
  | ldFont (x : Reg)
  /-- LD B, Vx (R93) -/
  | ldBcd (x : Reg)
  /-- LD [I], Vx (R94) -/
  | dumpRegs (x : Reg)
  /-- LD Vx, [I] (R95) -/
  | fillRegs (x : Reg)
  /-- DRW Vx, Vy, n (43_display.md R102) -/
  | drw (x y : Reg) (n : Nibble)
  deriving DecidableEq, Repr

end Sys2Proof
end

