-- ==== Sys2Proof/WellFormed.lean ====
section
/-! DEFINITION. Which instruction words are well formed. An instruction term needs no check of its own:
the types of its fields are the field widths of 30_encoding.md R47, so no ill-formed term can be
written. A WORD can be ill formed: 30_encoding.md R51 lists the unknown words in a table of seven rows,
transcribed here row by row, without reference to the decoder (log 13). -/

namespace Sys2Proof

/-- R51, row 1: 0x0000 to 0x0FFF except 0x00E0 and 0x00EE. -/
def UnknownWord.zeroFamily (w : Word) : Bool :=
  decide (w.toNat ≤ 0x0FFF ∧ w.toNat ≠ 0x00E0 ∧ w.toNat ≠ 0x00EE)

/-- R51, row 2: 5xy1 to 5xyF. -/
def UnknownWord.skipEqual (w : Word) : Bool :=
  decide (w.toNat / 0x1000 = 5 ∧ w.toNat % 16 ≠ 0)

/-- R51, row 3: 8xy8, 8xy9, 8xyA, 8xyB, 8xyC, 8xyD, 8xyF. -/
def UnknownWord.alu (w : Word) : Bool :=
  decide (w.toNat / 0x1000 = 8 ∧ w.toNat % 16 ∈ [0x8, 0x9, 0xA, 0xB, 0xC, 0xD, 0xF])

/-- R51, row 4: 9xy1 to 9xyF. -/
def UnknownWord.skipNotEqual (w : Word) : Bool :=
  decide (w.toNat / 0x1000 = 9 ∧ w.toNat % 16 ≠ 0)

/-- R51, row 5: Bnnn, all 4096 words. -/
def UnknownWord.jumpWithOffset (w : Word) : Bool :=
  decide (w.toNat / 0x1000 = 0xB)

/-- R51, row 6: Exkk with kk not in 9E, A1. -/
def UnknownWord.keyFamily (w : Word) : Bool :=
  decide (w.toNat / 0x1000 = 0xE ∧ w.toNat % 256 ∉ [0x9E, 0xA1])

/-- R51, row 7: Fxkk with kk not one of the nine selectors. -/
def UnknownWord.miscFamily (w : Word) : Bool :=
  decide (w.toNat / 0x1000 = 0xF ∧
    w.toNat % 256 ∉ [0x07, 0x0A, 0x15, 0x18, 0x1E, 0x29, 0x33, 0x55, 0x65])

/-- R51: the unknown words are exactly those of the seven rows. -/
def unknownWord (w : Word) : Bool :=
  UnknownWord.zeroFamily w || UnknownWord.skipEqual w || UnknownWord.alu w ||
    UnknownWord.skipNotEqual w || UnknownWord.jumpWithOffset w || UnknownWord.keyFamily w ||
    UnknownWord.miscFamily w

/-- A word that selects an instruction (R51: the other 39858 words). -/
def wellFormedWord (w : Word) : Bool := !unknownWord w

end Sys2Proof
end

