-- ==== Sys2Proof/Decode.lean ====
section
/-! DEFINITION. Decoding and encoding (30_encoding.md R45 to R52). The decoder branches on the leading
nibble, then on the trailing nibbles within a family (R50 item 5). The opcode map of R49 stands beside
it as data (`opcodeMap`), for statements to hold the decoder against. -/

namespace Sys2Proof

/-- Why bytes are no instruction. -/
inductive Reject where
  /-- The word matches no row of R49: the unknown-instruction handler's case (R51). -/
  | unknownWord (w : Word)
  /-- Fewer than the two bytes of an instruction (R45). -/
  | truncated (bytes : List Byte)
  deriving DecidableEq, Repr

/-! ### Words, nibbles, fields (R46, R47) -/

/-- `n0`, bits 15:12. -/
def nib0 (w : Word) : Nibble := w.extractLsb' 12 4
/-- `n1`, bits 11:8. -/
def nib1 (w : Word) : Nibble := w.extractLsb' 8 4
/-- `n2`, bits 7:4. -/
def nib2 (w : Word) : Nibble := w.extractLsb' 4 4
/-- `n3`, bits 3:0. -/
def nib3 (w : Word) : Nibble := w.extractLsb' 0 4

/-- A nibble used as a register number, 0 to 15 (R47). -/
def regOf (n : Nibble) : Reg := n.toFin
/-- A register number as a nibble. -/
def nibOf (r : Reg) : Nibble := BitVec.ofFin r

/-- The big-endian word of two bytes (20_memory.md R33). -/
def wordOf (hi lo : Byte) : Word := hi ++ lo

/-! ### The decoder -/

/-- The family of leading nibble 0: CLS and RET (R49 rows 1 and 2). -/
def decodeZero (n1 : Nibble) (kk : Byte) : Option Instr :=
  if n1 = 0x0#4 then
    if kk = 0xE0#8 then some .cls
    else if kk = 0xEE#8 then some .ret
    else none
  else none

/-- The family of leading nibble 8 (R49 rows 11 to 19); the selector is `n3`. -/
def decodeAlu (x y : Reg) (n3 : Nibble) : Option Instr :=
  if n3 = 0x0#4 then some (.ldReg x y)
  else if n3 = 0x1#4 then some (.orReg x y)
  else if n3 = 0x2#4 then some (.andReg x y)
  else if n3 = 0x3#4 then some (.xorReg x y)
  else if n3 = 0x4#4 then some (.addReg x y)
  else if n3 = 0x5#4 then some (.subReg x y)
  else if n3 = 0x6#4 then some (.shr x y)
  else if n3 = 0x7#4 then some (.subnReg x y)
  else if n3 = 0xE#4 then some (.shl x y)
  else none

/-- The family of leading nibble E (R49 rows 22 and 23); the selector is the low byte. -/
def decodeKey (x : Reg) (kk : Byte) : Option Instr :=
  if kk = 0x9E#8 then some (.skp x)
  else if kk = 0xA1#8 then some (.sknp x)
  else none

/-- The family of leading nibble F (R49 rows 24 to 32); the selector is the low byte. -/
def decodeMisc (x : Reg) (kk : Byte) : Option Instr :=
  if kk = 0x0A#8 then some (.ldKey x)
  else if kk = 0x07#8 then some (.ldFromDelay x)
  else if kk = 0x15#8 then some (.ldToDelay x)
  else if kk = 0x18#8 then some (.ldToSound x)
  else if kk = 0x1E#8 then some (.addIndex x)
  else if kk = 0x29#8 then some (.ldFont x)
  else if kk = 0x33#8 then some (.ldBcd x)
  else if kk = 0x55#8 then some (.dumpRegs x)
  else if kk = 0x65#8 then some (.fillRegs x)
  else none

/-- The instruction of a nibble tuple, if there is one: R49, the leading nibble first. 5xy0 and 9xy0
need `n3 = 0` (92_eei_decisions.md D2); leading nibble B has no instruction (D25). -/
def decodeNibbles (n0 n1 n2 n3 : Nibble) : Option Instr :=
  let x := regOf n1
  let y := regOf n2
  let nn : Byte := n2 ++ n3
  let nnn : Addr12 := n1 ++ nn
  if n0 = 0x0#4 then decodeZero n1 nn
  else if n0 = 0x1#4 then some (.jp nnn)
  else if n0 = 0x2#4 then some (.call nnn)
  else if n0 = 0x3#4 then some (.seImm x nn)
  else if n0 = 0x4#4 then some (.sneImm x nn)
  else if n0 = 0x5#4 then (if n3 = 0x0#4 then some (.seReg x y) else none)
  else if n0 = 0x6#4 then some (.ldImm x nn)
  else if n0 = 0x7#4 then some (.addImm x nn)
  else if n0 = 0x8#4 then decodeAlu x y n3
  else if n0 = 0x9#4 then (if n3 = 0x0#4 then some (.sneReg x y) else none)
  else if n0 = 0xA#4 then some (.ldIndex nnn)
  else if n0 = 0xC#4 then some (.rnd x nn)
  else if n0 = 0xD#4 then some (.drw x y n3)
  else if n0 = 0xE#4 then decodeKey x nn
  else if n0 = 0xF#4 then decodeMisc x nn
  else none

/-- Decoding of a fetched word, total: an instruction, or the word rejected by name (R51). -/
def decode (w : Word) : Except Reject Instr :=
  match decodeNibbles (nib0 w) (nib1 w) (nib2 w) (nib3 w) with
  | some i => .ok i
  | none => .error (.unknownWord w)

/-- Decoding of any bytes: the first two are the word, the rest is handed back (R45, R33). -/
def decodeBytes : List Byte → Except Reject (Instr × List Byte)
  | hi :: lo :: rest =>
    match decode (wordOf hi lo) with
    | .ok i => .ok (i, rest)
    | .error r => .error r
  | bytes => .error (.truncated bytes)

/-! ### The encoder, by the formats of R48: one nibble for each column of its table -/

/-- The word of a nibble tuple, `n0` most significant (R46). -/
def ofNibbles (n0 n1 n2 n3 : Nibble) : Word := n0 ++ (n1 ++ (n2 ++ n3))

/-- Format A: `F`, nnn[11:8], nnn[7:4], nnn[3:0]. -/
def formatA (n0 : Nibble) (nnn : Addr12) : Word :=
  ofNibbles n0 (nnn.extractLsb' 8 4) (nnn.extractLsb' 4 4) (nnn.extractLsb' 0 4)
/-- Format XI: `F`, x, nn[7:4], nn[3:0]. -/
def formatXI (n0 : Nibble) (x : Reg) (nn : Byte) : Word :=
  ofNibbles n0 (nibOf x) (nn.extractLsb' 4 4) (nn.extractLsb' 0 4)
/-- Format XY: `F`, x, y, `F`. -/
def formatXY (n0 : Nibble) (x y : Reg) (n3 : Nibble) : Word := ofNibbles n0 (nibOf x) (nibOf y) n3
/-- Format XYN: `F`, x, y, n. -/
def formatXYN (n0 : Nibble) (x y : Reg) (n : Nibble) : Word := ofNibbles n0 (nibOf x) (nibOf y) n
/-- Format X: `F`, x, `F`, `F`; the last two nibbles given as one byte. -/
def formatX (n0 : Nibble) (x : Reg) (kk : Byte) : Word :=
  ofNibbles n0 (nibOf x) (kk.extractLsb' 4 4) (kk.extractLsb' 0 4)

/-- The word of an instruction (R49, the pattern column). -/
def encode : Instr → Word
  | .cls => 0x00E0#16
  | .ret => 0x00EE#16
  | .jp nnn => formatA 0x1#4 nnn
  | .call nnn => formatA 0x2#4 nnn
  | .seImm x nn => formatXI 0x3#4 x nn
  | .sneImm x nn => formatXI 0x4#4 x nn
  | .seReg x y => formatXY 0x5#4 x y 0x0#4
  | .sneReg x y => formatXY 0x9#4 x y 0x0#4
  | .ldImm x nn => formatXI 0x6#4 x nn
  | .addImm x nn => formatXI 0x7#4 x nn
  | .ldReg x y => formatXY 0x8#4 x y 0x0#4
  | .orReg x y => formatXY 0x8#4 x y 0x1#4
  | .andReg x y => formatXY 0x8#4 x y 0x2#4
  | .xorReg x y => formatXY 0x8#4 x y 0x3#4
  | .addReg x y => formatXY 0x8#4 x y 0x4#4
  | .subReg x y => formatXY 0x8#4 x y 0x5#4
  | .shr x y => formatXY 0x8#4 x y 0x6#4
  | .subnReg x y => formatXY 0x8#4 x y 0x7#4
  | .shl x y => formatXY 0x8#4 x y 0xE#4
  | .ldIndex nnn => formatA 0xA#4 nnn
  | .rnd x nn => formatXI 0xC#4 x nn
  | .skp x => formatX 0xE#4 x 0x9E#8
  | .sknp x => formatX 0xE#4 x 0xA1#8
  | .ldKey x => formatX 0xF#4 x 0x0A#8
  | .ldFromDelay x => formatX 0xF#4 x 0x07#8
  | .ldToDelay x => formatX 0xF#4 x 0x15#8
  | .ldToSound x => formatX 0xF#4 x 0x18#8
  | .addIndex x => formatX 0xF#4 x 0x1E#8
  | .ldFont x => formatX 0xF#4 x 0x29#8
  | .ldBcd x => formatX 0xF#4 x 0x33#8
  | .dumpRegs x => formatX 0xF#4 x 0x55#8
  | .fillRegs x => formatX 0xF#4 x 0x65#8
  | .drw x y n => formatXYN 0xD#4 x y n

/-! ### The opcode map of R49 as data -/

/-- One row of the opcode map: `opcode & mask = match` selects it. -/
structure OpcodeRow where
  mnemonic : String
  mask : Word
  pattern : Word
  deriving DecidableEq, Repr

/-- R49, rows 1 to 10. -/
def opcodeMapFlow : List OpcodeRow :=
  [⟨"CLS", 0xFFFF, 0x00E0⟩, ⟨"RET", 0xFFFF, 0x00EE⟩, ⟨"JP_nnn", 0xF000, 0x1000⟩,
   ⟨"CALL_nnn", 0xF000, 0x2000⟩, ⟨"SE_Vx__nn", 0xF000, 0x3000⟩, ⟨"SNE_Vx__nn", 0xF000, 0x4000⟩,
   ⟨"SE_Vx__Vy", 0xF00F, 0x5000⟩, ⟨"SNE_Vx__Vy", 0xF00F, 0x9000⟩, ⟨"LD_Vx__nn", 0xF000, 0x6000⟩,
   ⟨"ADD_Vx__nn", 0xF000, 0x7000⟩]

/-- R49, rows 11 to 21. -/
def opcodeMapAlu : List OpcodeRow :=
  [⟨"LD_Vx__Vy", 0xF00F, 0x8000⟩, ⟨"OR_Vx__Vy", 0xF00F, 0x8001⟩, ⟨"AND_Vx__Vy", 0xF00F, 0x8002⟩,
   ⟨"XOR_Vx__Vy", 0xF00F, 0x8003⟩, ⟨"ADD_Vx__Vy", 0xF00F, 0x8004⟩, ⟨"SUB_Vx__Vy", 0xF00F, 0x8005⟩,
   ⟨"SHR_Vx", 0xF00F, 0x8006⟩, ⟨"SUBN_Vx__Vy", 0xF00F, 0x8007⟩, ⟨"SHL_Vx", 0xF00F, 0x800E⟩,
   ⟨"LD_I__nnn", 0xF000, 0xA000⟩, ⟨"RND_Vx__nn", 0xF000, 0xC000⟩]

/-- R49, rows 22 to 33. -/
def opcodeMapMisc : List OpcodeRow :=
  [⟨"SKP_Vx", 0xF0FF, 0xE09E⟩, ⟨"SKNP_Vx", 0xF0FF, 0xE0A1⟩, ⟨"LD_Vx__K", 0xF0FF, 0xF00A⟩,
   ⟨"LD_Vx__DT", 0xF0FF, 0xF007⟩, ⟨"LD_DT__Vx", 0xF0FF, 0xF015⟩, ⟨"LD_ST__Vx", 0xF0FF, 0xF018⟩,
   ⟨"ADD_I__Vx", 0xF0FF, 0xF01E⟩, ⟨"LD_F__Vx", 0xF0FF, 0xF029⟩, ⟨"LD_B__Vx", 0xF0FF, 0xF033⟩,
   ⟨"LD__I___Vx", 0xF0FF, 0xF055⟩, ⟨"LD_Vx___I", 0xF0FF, 0xF065⟩, ⟨"DRW_Vx__Vy__n", 0xF000, 0xD000⟩]

/-- R49: the 33 rows, in its order. -/
def opcodeMap : List OpcodeRow := opcodeMapFlow ++ (opcodeMapAlu ++ opcodeMapMisc)

/-- The row of the map an instruction belongs to, by its mnemonic. -/
def Instr.mnemonic : Instr → String
  | .cls => "CLS"
  | .ret => "RET"
  | .jp _ => "JP_nnn"
  | .call _ => "CALL_nnn"
  | .seImm _ _ => "SE_Vx__nn"
  | .sneImm _ _ => "SNE_Vx__nn"
  | .seReg _ _ => "SE_Vx__Vy"
  | .sneReg _ _ => "SNE_Vx__Vy"
  | .ldImm _ _ => "LD_Vx__nn"
  | .addImm _ _ => "ADD_Vx__nn"
  | .ldReg _ _ => "LD_Vx__Vy"
  | .orReg _ _ => "OR_Vx__Vy"
  | .andReg _ _ => "AND_Vx__Vy"
  | .xorReg _ _ => "XOR_Vx__Vy"
  | .addReg _ _ => "ADD_Vx__Vy"
  | .subReg _ _ => "SUB_Vx__Vy"
  | .shr _ _ => "SHR_Vx"
  | .subnReg _ _ => "SUBN_Vx__Vy"
  | .shl _ _ => "SHL_Vx"
  | .ldIndex _ => "LD_I__nnn"
  | .rnd _ _ => "RND_Vx__nn"
  | .skp _ => "SKP_Vx"
  | .sknp _ => "SKNP_Vx"
  | .ldKey _ => "LD_Vx__K"
  | .ldFromDelay _ => "LD_Vx__DT"
  | .ldToDelay _ => "LD_DT__Vx"
  | .ldToSound _ => "LD_ST__Vx"
  | .addIndex _ => "ADD_I__Vx"
  | .ldFont _ => "LD_F__Vx"
  | .ldBcd _ => "LD_B__Vx"
  | .dumpRegs _ => "LD__I___Vx"
  | .fillRegs _ => "LD_Vx___I"
  | .drw _ _ _ => "DRW_Vx__Vy__n"

/-! ### The host's probe -/

/-- The instruction the decoder reads from a word numbered as spec/opcode_table.json numbers it: the
`nbits` bits of `w`, laid out big-endian as the hardware stores them (R33). -/
def decodeTableWord (nbits w : Nat) : Option Instr :=
  let v : Word := BitVec.ofNat 16 (w % 2 ^ nbits)
  match decodeBytes [v.extractLsb' 8 8, v.extractLsb' 0 8] with
  | .ok (i, _) => some i
  | .error _ => none

end Sys2Proof
end

