-- ==== Sys2Proof/Machine/Fetch.lean ====
section
/-! DEFINITION. Steps 2 to 5 of the step cycle: fetching and decoding
(40_cycle_and_control_flow.md R60, 20_memory.md R33, R34). -/

namespace Sys2Proof.Machine

/-- Fetch and decode at `pc`: the instruction and the state with `opcode` written, or the state of a core
that halted, at the fetch (`opcode` not written, 60_exceptions.md R125) or at decode (`opcode` written,
R122). No alignment check (20_memory.md R34). -/
def fetch (s : State) : Except State (Instr × State) :=
  match accessFault s.pc.toNat 2 with
  | some bad => .error (s.takeHalt .addressRange bad)
  | none =>
    let w := s.mem.readWord s.pc.toNat
    match decode w with
    | .ok i => .ok (i, s.latch w)
    | .error _ => .error ((s.latch w).takeHalt .unknownOpcode w.toNat)

/-- The bytes of an instruction of `nbits` bits of `w` placed at `pc`, big-endian; where `pc` leaves no
room for them memory stays as it is (log 10). -/
def placeWord (s : State) (nbits w : Nat) : State :=
  let v : Word := BitVec.ofNat 16 (w % 2 ^ nbits)
  match accessFault s.pc.toNat 2 with
  | some _ => s
  | none => s.setMem (s.mem.writeBytes s.pc.toNat [v.extractLsb' 8 8, v.extractLsb' 0 8])

end Sys2Proof.Machine
end

