-- ==== Sys2Proof/Machine/Step.lean ====
section
/-! DEFINITION. The `step` event (40_cycle_and_control_flow.md R60). -/

namespace Sys2Proof.Machine

/-- One `step` (R60): nothing where the core is halted; else fetch and decode, then the instruction's
rule, which writes pc itself (R61). The random byte is `State.randomByte`, drawn by the instruction that
reads it (log 1). -/
def step (s : State) : Host.Outcome State Fault Refusal :=
  if s.halted then .next s
  else
    match fetch s with
    | .error t => .next t
    | .ok (i, t) => exec i t

/-- `s` with an instruction placed where `step` fetches its next one (log 10). -/
def State.withFetchWord (s : State) (nbits w : Nat) : State := placeWord s nbits w

end Sys2Proof.Machine
end

