-- ==== Sys2Proof/Machine/Events.lean ====
section
/-! DEFINITION. The events of the machine (00_scope.md R9), the host's among them (10_state.md R27), their
outputs, and runs: any finite or infinite sequence of events that keeps the host duties (60_exceptions.md R135,
70_reset_and_hazards.md R146, log 4). -/

namespace Sys2Proof.Machine

/-- Exactly these events change or read state (00_scope.md R9). -/
inductive Event where
  /-- 70_reset_and_hazards.md R145 -/
  | reset
  /-- 40_cycle_and_control_flow.md R60 -/
  | step
  /-- 60_exceptions.md R133 -/
  | tick
  /-- `host_load(addr, byte)` -/
  | hostLoad (addr : Nat) (byte : Byte)
  /-- `host_set_key(k, b)` -/
  | hostSetKey (k : Key) (b : Bool)
  /-- `host_clear_redraw` -/
  | hostClearRedraw
  /-- `host_read_display` -/
  | hostReadDisplay
  /-- `host_read_status` -/
  | hostReadStatus
  deriving DecidableEq, Repr

/-- What `host_read_status` returns (R27). -/
structure Status where
  halted : Bool
  haltCause : BitVec 3
  haltValue : Word
  opcode : Word
  redraw : Bool
  deriving DecidableEq, Repr

/-- What an event hands to the environment (log 14). -/
inductive Output where
  | nothing
  | beep (b : Bool)
  | display (d : Display)
  | status (st : Status)
  deriving DecidableEq, Repr

/-- `host_set_key`: `key[k] <- b` (R27). -/
def State.setKey (s : State) (k : Key) (b : Bool) : State := { s with key := s.key.set k.val b }

/-- `host_clear_redraw`: `redraw <- 0` (R27). -/
def State.clearRedraw (s : State) : State := { s with redraw := false }

/-- `host_read_status` (R27). -/
def State.status (s : State) : Status where
  halted := s.halted
  haltCause := s.haltCause
  haltValue := s.haltValue
  opcode := s.opcode
  redraw := s.redraw

/-- The duty of a `host_load`: between a `reset` and the first `step` after it, and at an address that
exists (R27). -/
def loadAllowed (loading : Bool) (addr : Nat) : Bool := loading && decide (addr < Config.memSize)

/-- One event. `loading` says whether the core is between a `reset` and the first `step` after it, the
only time the host may load memory; a `host_load` at another time, or at an address that does not exist,
has no transition and is refused by name (R27, 93_implementation_defined.md K25, log 8). -/
def event (loading : Bool) (e : Event) (s : State) : Host.Outcome State Fault Refusal :=
  match e with
  | .reset => .next s.resetEvent
  | .step => step s
  | .tick => .next s.tick
  | .hostLoad addr byte =>
    if loadAllowed loading addr then .next (s.setMem (s.mem.write addr byte))
    else .refused .hostDuty
  | .hostSetKey k b => .next (s.setKey k b)
  | .hostClearRedraw => .next s.clearRedraw
  | .hostReadDisplay => .next s
  | .hostReadStatus => .next s

/-- Whether the host may load after this event. -/
def loadingAfter (loading : Bool) : Event → Bool
  | .reset => true
  | .step => false
  | _ => loading

/-- What the event outputs, from the state it acts on (R26, R27, 60_exceptions.md R134). -/
def output (e : Event) (s : State) : Output :=
  match e with
  | .tick => .beep s.beep
  | .hostReadDisplay => .display s.disp
  | .hostReadStatus => .status s.status
  | _ => .nothing

/-- A sequence of events in order, stopping where one has no transition. -/
def runEvents (loading : Bool) : List Event → State → Host.Outcome State Fault Refusal
  | [], s => .next s
  | e :: es, s =>
    match event loading e s with
    | .next t => runEvents (loadingAfter loading e) es t
    | .fault r => .fault r
    | .refused r => .refused r

/-- The states a run can reach (R146): from the constructed core, by any events that keep the host
duties. -/
def Reachable (s : State) : Prop := ∃ es, runEvents true es State.reset = .next s

/-- Whether the host may load at the `n`th event of an infinite sequence, from the constructed core on. -/
def loadingAt (events : Nat → Event) : Nat → Bool
  | 0 => true
  | n + 1 => loadingAfter (loadingAt events n) (events n)

/-- An infinite run (R9): the states the events take the constructed core through, one after another. -/
def InfiniteRun (events : Nat → Event) (states : Nat → State) : Prop :=
  states 0 = State.reset ∧
    ∀ n, event (loadingAt events n) (events n) (states n) = .next (states (n + 1))

/-! ### The host's duty in a sequence of events (R9, R27) -/

/-- The event breaks no duty of the host's. -/
def dutyKept (loading : Bool) : Event → Bool
  | .hostLoad addr _ => loadAllowed loading addr
  | _ => true

/-- No event of a finite sequence breaks one. -/
def dutiesKept (loading : Bool) : List Event → Bool
  | [] => true
  | e :: es => dutyKept loading e && dutiesKept (loadingAfter loading e) es

/-- No event of an infinite sequence breaks one. -/
def DutiesKeptForever (events : Nat → Event) : Prop :=
  ∀ n, dutyKept (loadingAt events n) (events n) = true

end Sys2Proof.Machine
end

