-- ==== Sys2Proof/Safety.lean ====
section
/-! DEFINITION. The terms statements use: a safe run, the invariants, and what an instruction leaves
unchanged. -/

namespace Sys2Proof.Machine

/-- A safe state: the core is not halted. A halt is a failure that nothing but `reset` clears, never a
normal end (60_exceptions.md R120, R129; 92_eei_decisions.md D13). -/
abbrev Safe (s : State) : Prop := s.halted = false

/-! ### Invariants -/

/-- The halt registers are 0 while the core runs, and hold one of the five causes once it halted; codes 6
and 7 are never written (10_state.md R22, 60_exceptions.md R121). -/
abbrev HaltRegsAgree (s : State) : Prop :=
  (s.halted = false → s.haltCause = 0 ∧ s.haltValue = 0) ∧
  (s.halted = true → 1 ≤ s.haltCause.toNat ∧ s.haltCause.toNat ≤ 5)

/-- Memory in its canonical form, the halt registers in agreement. -/
abbrev Inv (s : State) : Prop := s.mem.wf ∧ HaltRegsAgree s

/-- 10_state.md R15: no instruction leaves pc above 0x1002, no CALL saves above 0x1000. -/
abbrev PcBounded (s : State) : Prop :=
  s.pc.toNat ≤ 0x1002 ∧ ∀ k : Fin 16, s.stack[k.val].toNat ≤ 0x1000

/-! ### Frames -/

/-- The parts of the state of 10_state.md R10 (and the model's own draw counter). -/
inductive Part where
  | memory | regs | index | pc | stack | delay | sound | display | redraw | keys | opcode | halt | draws
  deriving DecidableEq, Repr

/-- The part is the same in both states; memory is compared byte by byte. -/
def Part.Same (s t : State) : Part → Prop
  | .memory => ∀ a, t.mem.read a = s.mem.read a
  | .regs => ∀ r, t.reg r = s.reg r
  | .index => t.I = s.I
  | .pc => t.pc = s.pc
  | .stack => t.sp = s.sp ∧ ∀ k : Fin 16, t.stack[k.val] = s.stack[k.val]
  | .delay => t.delay = s.delay
  | .sound => t.sound = s.sound
  | .display => ∀ col row, t.disp.cell col row = s.disp.cell col row
  | .redraw => t.redraw = s.redraw
  | .keys => ∀ k : Key, t.key[k.val] = s.key[k.val]
  | .opcode => t.opcode = s.opcode
  | .halt => t.halted = s.halted ∧ t.haltCause = s.haltCause ∧ t.haltValue = s.haltValue
  | .draws => t.draws = s.draws

/-- Every part not listed is the same in both states. -/
def KeepsAllBut (parts : List Part) (s t : State) : Prop := ∀ p, p ∉ parts → p.Same s t

/-- Every general register not listed is the same in both states. -/
def KeepsRegsBut (regs : List Reg) (s t : State) : Prop := ∀ r, r ∉ regs → t.reg r = s.reg r

/-- Every byte outside `a, …, a + n - 1` reads as before. -/
def KeepsMemoryOutside (a n : Nat) (s t : State) : Prop :=
  ∀ b, (b < a ∨ a + n ≤ b) → t.mem.read b = s.mem.read b

/-- The outcome is a next state, of which `P` holds. -/
def Ends (o : Host.Outcome State Fault Refusal) (P : State → Prop) : Prop := ∃ t, o = .next t ∧ P t

/-- The outcome is a next state whose general registers, but for those listed, and whose every other part
but `pc` are as before, with pc two further: the shape of the register instructions (41_alu.md: "Every one
of them advances pc by 2 and touches no memory"). `P` says what the listed registers hold. -/
def WritesRegs (s : State) (o : Host.Outcome State Fault Refusal) (regs : List Reg)
    (P : State → Prop) : Prop :=
  Ends o fun t => P t ∧ KeepsRegsBut regs s t ∧ t.pc = s.pc + 2 ∧ KeepsAllBut [.regs, .pc] s t

/-- The outcome is a next state in which only `pc` moved, four further if `c` holds, else two: the shape
of the skips (40_cycle_and_control_flow.md R61). -/
def Skips (s : State) (o : Host.Outcome State Fault Refusal) (c : Prop) : Prop :=
  Ends o fun t => (c → t.pc = s.pc + 4) ∧ (¬c → t.pc = s.pc + 2) ∧ KeepsAllBut [.pc] s t

/-- The outcome is a halt of the given cause and value that changed nothing else (60_exceptions.md R128). -/
def HaltsWith (s : State) (o : Host.Outcome State Fault Refusal) (code : BitVec 3) (value : Nat) : Prop :=
  Ends o fun t => t.halted = true ∧ t.haltCause = code ∧ t.haltValue.toNat = value ∧
    KeepsAllBut [.halt] s t

/-! ### Encodings and events -/

/-- The word, given as the number its pattern in 30_encoding.md R49 spells, selects the instruction. -/
def Selects (word : Nat) (i : Instr) : Prop := decode (BitVec.ofNat 16 word) = .ok i

/-- The word selects no instruction. -/
def SelectsNothing (word : Nat) : Prop :=
  decode (BitVec.ofNat 16 word) = .error (.unknownWord (BitVec.ofNat 16 word))

/-- `k` ticks one after another. -/
def ticks : Nat → State → State
  | 0, s => s
  | k + 1, s => ticks k s.tick

/-- The cell is a target of the sprite that DRW Vx, Vy, n draws: a set bit of row `r`, column `c` lands on
it, each axis wrapping on its own (43_display.md R102). -/
def Targeted (s : State) (x y : Reg) (n : Nibble) (col : Fin 64) (row : Fin 32) : Prop :=
  ∃ r c : Nat, r < n.toNat ∧ c < 8 ∧ (s.mem.read (s.I.toNat + r)).getLsbD (7 - c) = true ∧
    col.val = ((s.reg x).toNat + c) % 64 ∧ row.val = ((s.reg y).toNat + r) % 32

/-- The instruction names VF as an operand: as `x`, as `y` where the instruction reads it, or among the
registers V0 to Vx. -/
def NamesFlag : Instr → Prop
  | .cls | .ret | .jp _ | .call _ | .ldIndex _ => False
  | .seImm x _ | .sneImm x _ | .ldImm x _ | .addImm x _ | .rnd x _ => x = Reg.flag
  | .seReg x y | .sneReg x y | .ldReg x y | .orReg x y | .andReg x y | .xorReg x y | .addReg x y
  | .subReg x y | .subnReg x y | .drw x y _ => x = Reg.flag ∨ y = Reg.flag
  | .shr x _ | .shl x _ => x = Reg.flag
  | .skp x | .sknp x | .ldKey x | .ldFromDelay x | .ldToDelay x | .ldToSound x | .addIndex x
  | .ldFont x | .ldBcd x | .dumpRegs x | .fillRegs x => x = Reg.flag

/-- The instructions that write VF as a side effect (10_state.md R12), by mnemonic. -/
def flagWriters : List String :=
  ["ADD_Vx__Vy", "SUB_Vx__Vy", "SHR_Vx", "SUBN_Vx__Vy", "SHL_Vx", "ADD_I__Vx", "DRW_Vx__Vy__n"]

end Sys2Proof.Machine
end

