-- ==== Sys2Proof/Certificates/Slice0/Obligations.lean ====
section
/-! DEFINITION. The statements for the provers. A word in a statement is the number its pattern in
30_encoding.md R49 spells: 6xnn is 0x6000 + 0x100 * x + nn. -/

open Sys2Proof Sys2Proof.Machine

/-! ### The step cycle and decoding -/

/-- A step of a running core at a pc inside memory runs exactly the instruction that the big-endian word at
pc decodes to, on the state with `opcode` holding that word and nothing else moved (R60 steps 3 to 6). -/
def Obligations.StepRunsTheDecodedInstruction : Prop :=
  ∀ (s : State) (w : Word) (i : Instr), s.halted = false → s.pc.toNat + 1 ≤ 4095 →
    w.toNat = 0x100 * (s.mem.read s.pc.toNat).toNat + (s.mem.read (s.pc.toNat + 1)).toNat →
    decode w = .ok i → step s = exec i (s.latch w)

/-- R60, every path: a halted core does nothing; a fetch that would leave memory halts without writing
`opcode`; a word that matches no row of the map halts with `opcode` written; a word that matches a row runs
that row's instruction, with the operands that the word holds. -/
def Obligations.StepFollowsTheCycle : Prop :=
  ∀ s : State,
    (s.halted = true → step s = .next s) ∧
    (s.halted = false → s.pc.toNat + 1 > 4095 →
      HaltsWith s (step s) 4 (max s.pc.toNat 4096)) ∧
    (s.halted = false → s.pc.toNat + 1 ≤ 4095 → ∀ w : Word,
      w.toNat = 0x100 * (s.mem.read s.pc.toNat).toNat + (s.mem.read (s.pc.toNat + 1)).toNat →
      ((∀ r ∈ opcodeMap, w &&& r.mask ≠ r.pattern) →
        HaltsWith (s.latch w) (step s) 1 w.toNat) ∧
      (∀ r ∈ opcodeMap, w &&& r.mask = r.pattern →
        ∃ i, i.mnemonic = r.mnemonic ∧ encode i = w ∧ step s = exec i (s.latch w)))

/-- Words written out nibble by nibble from R49's patterns, one of each format and family. -/
def Obligations.WrittenOutWordsDecode : Prop :=
  decode 0x00E0#16 = .ok .cls ∧ decode 0x00EE#16 = .ok .ret ∧
  decode 0x1ABC#16 = .ok (.jp 0xABC#12) ∧ decode 0x3A5F#16 = .ok (.seImm 0xA 0x5F#8) ∧
  decode 0x81F6#16 = .ok (.shr 0x1 0xF) ∧ decode 0x8AB4#16 = .ok (.addReg 0xA 0xB) ∧
  decode 0xA2F0#16 = .ok (.ldIndex 0x2F0#12) ∧ decode 0xC30F#16 = .ok (.rnd 0x3 0x0F#8) ∧
  decode 0xD12F#16 = .ok (.drw 0x1 0x2 0xF#4) ∧ decode 0xE59E#16 = .ok (.skp 0x5) ∧
  decode 0xF755#16 = .ok (.dumpRegs 0x7)

/-- Every instruction, with every operand value its encoding admits, is read back from its word. -/
def Obligations.DecodeOfEncodeIsTheInstruction : Prop :=
  ∀ i : Instr, decode (encode i) = .ok i

/-- A word has one meaning and no bit of it is lost: the instruction it decodes to encodes to it. -/
def Obligations.EncodeOfDecodeIsTheWord : Prop :=
  ∀ (w : Word) (i : Instr), decode w = .ok i → encode i = w

/-- R49: the map has 33 rows, and a word selects a row's instruction exactly when `opcode & mask = match`. -/
def Obligations.DecodeSelectsTheMatchingRow : Prop :=
  opcodeMap.length = 33 ∧
  ∀ (w : Word) (r : OpcodeRow), r ∈ opcodeMap →
    (w &&& r.mask = r.pattern ↔ ∃ i, decode w = .ok i ∧ i.mnemonic = r.mnemonic)

/-- R51, R122: the words of R51's table, and no others, are unknown, and a running core that fetches one
halts with cause 1 and the word as value, pc and everything but `opcode` as before. -/
def Obligations.UnknownWordsAreThoseOfTheTableAndHalt : Prop :=
  (∀ w : Word, unknownWord w = true ↔ decode w = .error (.unknownWord w)) ∧
  ∀ (s : State) (w : Word), s.halted = false → s.pc.toNat + 1 ≤ 4095 →
    w.toNat = 0x100 * (s.mem.read s.pc.toNat).toNat + (s.mem.read (s.pc.toNat + 1)).toNat →
    unknownWord w = true → HaltsWith (s.latch w) (step s) 1 w.toNat

/-! ### Register file and ALU -/

/-- R76, R77: LD Vx, nn and ADD Vx, nn; no flag, x = F being an ordinary destination. -/
def Obligations.LoadAndAddImmediate : Prop :=
  ∀ (x : Reg) (nn : Byte) (s : State),
    Selects (0x6000 + 0x100 * x.val + nn.toNat) (.ldImm x nn) ∧
    WritesRegs s (exec (.ldImm x nn) s) [x] (fun t => t.reg x = nn) ∧
    Selects (0x7000 + 0x100 * x.val + nn.toNat) (.addImm x nn) ∧
    WritesRegs s (exec (.addImm x nn) s) [x]
      (fun t => (t.reg x).toNat = ((s.reg x).toNat + nn.toNat) % 256)

/-- R78 to R81: copy, OR, AND, XOR of registers; no flag, VF neither written nor cleared. -/
def Obligations.CopyAndBitwise : Prop :=
  ∀ (x y : Reg) (s : State),
    Selects (0x8000 + 0x100 * x.val + 0x10 * y.val) (.ldReg x y) ∧
    WritesRegs s (exec (.ldReg x y) s) [x] (fun t => t.reg x = s.reg y) ∧
    Selects (0x8001 + 0x100 * x.val + 0x10 * y.val) (.orReg x y) ∧
    WritesRegs s (exec (.orReg x y) s) [x] (fun t => t.reg x = s.reg x ||| s.reg y) ∧
    Selects (0x8002 + 0x100 * x.val + 0x10 * y.val) (.andReg x y) ∧
    WritesRegs s (exec (.andReg x y) s) [x] (fun t => t.reg x = s.reg x &&& s.reg y) ∧
    Selects (0x8003 + 0x100 * x.val + 0x10 * y.val) (.xorReg x y) ∧
    WritesRegs s (exec (.xorReg x y) s) [x] (fun t => t.reg x = s.reg x ^^^ s.reg y)

/-- R82: the wrapped sum and the carry, from operands read first; with x = F only the carry remains. -/
def Obligations.AddRegistersWithCarry : Prop :=
  ∀ (x y : Reg) (s : State),
    Selects (0x8004 + 0x100 * x.val + 0x10 * y.val) (.addReg x y) ∧
    WritesRegs s (exec (.addReg x y) s) [x, Reg.flag] fun t =>
      (x ≠ Reg.flag → (t.reg x).toNat = ((s.reg x).toNat + (s.reg y).toNat) % 256) ∧
      (t.reg Reg.flag).toNat = if (s.reg x).toNat + (s.reg y).toNat > 255 then 1 else 0

/-- R83, R85: SUB's flag is 1 on equal operands, SUBN's is 0; the difference wraps. -/
def Obligations.SubtractBothWays : Prop :=
  ∀ (x y : Reg) (s : State),
    Selects (0x8005 + 0x100 * x.val + 0x10 * y.val) (.subReg x y) ∧
    WritesRegs s (exec (.subReg x y) s) [x, Reg.flag] (fun t =>
      (x ≠ Reg.flag → (t.reg x).toNat = ((s.reg x).toNat + 256 - (s.reg y).toNat) % 256) ∧
      (t.reg Reg.flag).toNat = if (s.reg y).toNat > (s.reg x).toNat then 0 else 1) ∧
    Selects (0x8007 + 0x100 * x.val + 0x10 * y.val) (.subnReg x y) ∧
    WritesRegs s (exec (.subnReg x y) s) [x, Reg.flag] (fun t =>
      (x ≠ Reg.flag → (t.reg x).toNat = ((s.reg y).toNat + 256 - (s.reg x).toNat) % 256) ∧
      (t.reg Reg.flag).toNat = if (s.reg y).toNat > (s.reg x).toNat then 1 else 0)

/-- R84, R86: the shifts move V[x] by one in place, whatever the `y` field of the word. -/
def Obligations.ShiftsIgnoreTheirSecondField : Prop :=
  ∀ (x y : Reg) (s : State),
    Selects (0x8006 + 0x100 * x.val + 0x10 * y.val) (.shr x y) ∧
    WritesRegs s (exec (.shr x y) s) [x, Reg.flag] (fun t =>
      (x ≠ Reg.flag → (t.reg x).toNat = (s.reg x).toNat / 2) ∧
      (t.reg Reg.flag).toNat = (s.reg x).toNat % 2) ∧
    Selects (0x800E + 0x100 * x.val + 0x10 * y.val) (.shl x y) ∧
    WritesRegs s (exec (.shl x y) s) [x, Reg.flag] (fun t =>
      (x ≠ Reg.flag → (t.reg x).toNat = (2 * (s.reg x).toNat) % 256) ∧
      (t.reg Reg.flag).toNat = (s.reg x).toNat / 128)

/-- R87: RND masks the step's random byte. That byte is the model's free value `Config.rnd` applied to the
draw counter, which it moves on: the model's choice (log 1), and the statement holds for every value of
the counter. -/
def Obligations.RandomByteIsMasked : Prop :=
  ∀ (x : Reg) (nn : Byte) (s : State),
    Selects (0xC000 + 0x100 * x.val + nn.toNat) (.rnd x nn) ∧
    Ends (exec (.rnd x nn) s) fun t =>
      t.reg x = Config.rnd s.draws &&& nn ∧ t.draws = s.draws + 1 ∧
      KeepsRegsBut [x] s t ∧ t.pc = s.pc + 2 ∧ KeepsAllBut [.regs, .pc, .draws] s t

/-! ### Control flow -/

/-- R64: JP moves pc and nothing else. -/
def Obligations.JumpGoesToTheImmediate : Prop :=
  ∀ (nnn : Addr12) (s : State),
    Selects (0x1000 + nnn.toNat) (.jp nnn) ∧
    Ends (exec (.jp nnn) s) fun t => t.pc.toNat = nnn.toNat ∧ KeepsAllBut [.pc] s t

/-- R65, R123: CALL saves pc + 2 in the entry at sp, raises sp and jumps; with 16 live entries it halts
with cause 2 and the opcode as value, changing nothing else. -/
def Obligations.CallPushesOrOverflows : Prop :=
  ∀ (nnn : Addr12) (s : State),
    Selects (0x2000 + nnn.toNat) (.call nnn) ∧
    (s.sp.val < 16 → Ends (exec (.call nnn) s) fun t =>
      t.pc.toNat = nnn.toNat ∧ t.sp.val = s.sp.val + 1 ∧
      (∀ k : Fin 16, t.stack[k.val] = if k.val = s.sp.val then s.pc + 2 else s.stack[k.val]) ∧
      KeepsAllBut [.pc, .stack] s t) ∧
    (s.sp.val = 16 → HaltsWith s (exec (.call nnn) s) 2 s.opcode.toNat)

/-- R63, R124: RET lowers sp and goes to the entry there, used as it is; every entry keeps its value; with
an empty stack it halts with cause 3 and the opcode as value. -/
def Obligations.ReturnPopsOrUnderflows : Prop :=
  ∀ s : State,
    Selects 0x00EE .ret ∧
    (∀ k : Fin 16, s.sp.val = k.val + 1 → Ends (exec .ret s) fun t =>
      t.pc = s.stack[k.val] ∧ t.sp.val = k.val ∧
      (∀ j : Fin 16, t.stack[j.val] = s.stack[j.val]) ∧ KeepsAllBut [.pc, .stack] s t) ∧
    (s.sp.val = 0 → HaltsWith s (exec .ret s) 3 s.opcode.toNat)

/-- A CALL immediately followed by a RET comes back to the instruction after the CALL, with the depth it
had, and changes nothing but the stale stack entry. -/
def Obligations.CallThenReturnComesBack : Prop :=
  ∀ (nnn : Addr12) (s : State), s.sp.val < 16 →
    Ends (exec (.call nnn) s) fun t => Ends (exec .ret t) fun u =>
      u.pc = s.pc + 2 ∧ u.sp = s.sp ∧
      (∀ k : Fin 16, k.val ≠ s.sp.val → u.stack[k.val] = s.stack[k.val]) ∧
      KeepsAllBut [.pc, .stack] s u

/-- R66 to R69: the four skips on registers; 5xy1 to 5xyF and 9xy1 to 9xyF are no instructions. -/
def Obligations.SkipsOnRegisters : Prop :=
  ∀ (x y : Reg) (nn : Byte) (s : State),
    Selects (0x3000 + 0x100 * x.val + nn.toNat) (.seImm x nn) ∧
    Skips s (exec (.seImm x nn) s) (s.reg x = nn) ∧
    Selects (0x4000 + 0x100 * x.val + nn.toNat) (.sneImm x nn) ∧
    Skips s (exec (.sneImm x nn) s) (s.reg x ≠ nn) ∧
    Selects (0x5000 + 0x100 * x.val + 0x10 * y.val) (.seReg x y) ∧
    Skips s (exec (.seReg x y) s) (s.reg x = s.reg y) ∧
    Selects (0x9000 + 0x100 * x.val + 0x10 * y.val) (.sneReg x y) ∧
    Skips s (exec (.sneReg x y) s) (s.reg x ≠ s.reg y) ∧
    ∀ k : Fin 16, k ≠ 0 →
      SelectsNothing (0x5000 + 0x100 * x.val + 0x10 * y.val + k.val) ∧
      SelectsNothing (0x9000 + 0x100 * x.val + 0x10 * y.val + k.val)

/-- What each instruction may leave in pc when it does not halt (R61's list). -/
def Sys2Proof.Machine.PcAfter (i : Instr) (s t : State) : Prop :=
  match i with
  | .jp nnn | .call nnn => t.pc.toNat = nnn.toNat
  | .ret => ∃ k : Fin 16, s.sp.val = k.val + 1 ∧ t.pc = s.stack[k.val]
  | .seImm _ _ | .sneImm _ _ | .seReg _ _ | .sneReg _ _ | .skp _ | .sknp _ =>
    t.pc = s.pc + 2 ∨ t.pc = s.pc + 4
  | .ldKey _ => if ∃ k : Key, s.key[k.val] = true then t.pc = s.pc + 2 else t.pc = s.pc
  | .cls | .ldImm _ _ | .addImm _ _ | .ldReg _ _ | .orReg _ _ | .andReg _ _ | .xorReg _ _
  | .addReg _ _ | .subReg _ _ | .shr _ _ | .subnReg _ _ | .shl _ _ | .ldIndex _ | .rnd _ _
  | .ldFromDelay _ | .ldToDelay _ | .ldToSound _ | .addIndex _ | .ldFont _ | .ldBcd _
  | .dumpRegs _ | .fillRegs _ | .drw _ _ _ => t.pc = s.pc + 2

/-- R61: the whole list of what instructions do to pc, halts included (pc unchanged). -/
def Obligations.PcAdvanceOfEveryInstruction : Prop :=
  ∀ (i : Instr) (s t : State), s.halted = false → exec i s = .next t →
    if t.halted then t.pc = s.pc else PcAfter i s t

/-! ### Index register and memory -/

/-- R90, R92: LD I, nnn and LD F, Vx; the whole of V[x] is multiplied by 5. -/
def Obligations.LoadIndexAndGlyphAddress : Prop :=
  ∀ (nnn : Addr12) (x : Reg) (s : State),
    Selects (0xA000 + nnn.toNat) (.ldIndex nnn) ∧
    Ends (exec (.ldIndex nnn) s) (fun t =>
      t.I.toNat = nnn.toNat ∧ t.pc = s.pc + 2 ∧ KeepsAllBut [.index, .pc] s t) ∧
    Selects (0xF029 + 0x100 * x.val) (.ldFont x) ∧
    Ends (exec (.ldFont x) s) (fun t =>
      t.I.toNat = 5 * (s.reg x).toNat ∧ t.pc = s.pc + 2 ∧ KeepsAllBut [.index, .pc] s t)

/-- R91: the sum mod 2^16 to I, VF from the unbounded sum; with x = F the old VF is added, then
overwritten. -/
def Obligations.AddToIndexSetsTheRangeFlag : Prop :=
  ∀ (x : Reg) (s : State),
    Selects (0xF01E + 0x100 * x.val) (.addIndex x) ∧
    Ends (exec (.addIndex x) s) fun t =>
      t.I.toNat = (s.I.toNat + (s.reg x).toNat) % 65536 ∧
      (t.reg Reg.flag).toNat = (if s.I.toNat + (s.reg x).toNat > 0xFFF then 1 else 0) ∧
      KeepsRegsBut [Reg.flag] s t ∧ t.pc = s.pc + 2 ∧ KeepsAllBut [.regs, .index, .pc] s t

/-- R93: three decimal digits at I, I + 1, I + 2; a range halt where one of them is beyond memory. -/
def Obligations.BcdStoresThreeDigits : Prop :=
  ∀ (x : Reg) (s : State),
    Selects (0xF033 + 0x100 * x.val) (.ldBcd x) ∧
    (s.I.toNat + 2 ≤ 4095 → Ends (exec (.ldBcd x) s) fun t =>
      (t.mem.read s.I.toNat).toNat = (s.reg x).toNat / 100 ∧
      (t.mem.read (s.I.toNat + 1)).toNat = (s.reg x).toNat / 10 % 10 ∧
      (t.mem.read (s.I.toNat + 2)).toNat = (s.reg x).toNat % 10 ∧
      KeepsMemoryOutside s.I.toNat 3 s t ∧ t.pc = s.pc + 2 ∧ KeepsAllBut [.memory, .pc] s t) ∧
    (s.I.toNat + 2 > 4095 → HaltsWith s (exec (.ldBcd x) s) 4 (max s.I.toNat 4096))

/-- R94: V0 to Vx at I to I + x, I not advanced; a range halt where I + x is beyond memory, no byte
written. -/
def Obligations.DumpStoresTheRegisters : Prop :=
  ∀ (x : Reg) (s : State),
    Selects (0xF055 + 0x100 * x.val) (.dumpRegs x) ∧
    (s.I.toNat + x.val ≤ 4095 → Ends (exec (.dumpRegs x) s) fun t =>
      (∀ k : Reg, k.val ≤ x.val → t.mem.read (s.I.toNat + k.val) = s.reg k) ∧
      KeepsMemoryOutside s.I.toNat (x.val + 1) s t ∧ t.pc = s.pc + 2 ∧
      KeepsAllBut [.memory, .pc] s t) ∧
    (s.I.toNat + x.val > 4095 → HaltsWith s (exec (.dumpRegs x) s) 4 (max s.I.toNat 4096))

/-- R95: V0 to Vx from I to I + x, the registers above Vx and I as before; a range halt where I + x is
beyond memory, no register written. -/
def Obligations.FillLoadsTheRegisters : Prop :=
  ∀ (x : Reg) (s : State),
    Selects (0xF065 + 0x100 * x.val) (.fillRegs x) ∧
    (s.I.toNat + x.val ≤ 4095 → Ends (exec (.fillRegs x) s) fun t =>
      (∀ k : Reg, t.reg k = if k.val ≤ x.val then s.mem.read (s.I.toNat + k.val) else s.reg k) ∧
      t.pc = s.pc + 2 ∧ KeepsAllBut [.regs, .pc] s t) ∧
    (s.I.toNat + x.val > 4095 → HaltsWith s (exec (.fillRegs x) s) 4 (max s.I.toNat 4096))

/-- Dumping V0 to Vx and then, whatever the registers became meanwhile, loading V0 to Vx back from the same
I restores them. -/
def Obligations.DumpThenFillRestores : Prop :=
  ∀ (x : Reg) (s : State), s.I.toNat + x.val ≤ 4095 →
    Ends (exec (.dumpRegs x) s) fun t => t.I = s.I ∧
      ∀ u : State, u.mem = t.mem → u.I = t.I →
        Ends (exec (.fillRegs x) u) fun v => (∀ k : Reg, k.val ≤ x.val → v.reg k = s.reg k) ∧ v.I = s.I

/-- A running core whose pc stands on bytes a register dump has just stored fetches them: the next step
runs what they decode to (R39). -/
def Obligations.StoredBytesAreFetchedByTheNextStep : Prop :=
  ∀ (x : Reg) (s : State), s.I.toNat + x.val ≤ 4095 →
    Ends (exec (.dumpRegs x) s) fun t =>
      ∀ (k l : Reg) (i : Instr), l.val = k.val + 1 → l.val ≤ x.val → t.pc.toNat = s.I.toNat + k.val →
        t.halted = false → decode (s.reg k ++ s.reg l) = .ok i →
        step t = exec i (t.latch (s.reg k ++ s.reg l))

/-- R125, the five conditions with the value recorded, and that they are all: the four instructions raise
it under their condition only, and no other instruction raises it, those that only compute addresses among
them. `exec` does not look at `halted`, so "does not raise" is said as: cause 4 after means cause 4 before. -/
def Obligations.AddressRangeHaltsAreTheFive : Prop :=
  (∀ s : State, s.halted = false → s.pc.toNat + 1 > 4095 →
    HaltsWith s (step s) 4 (max s.pc.toNat 4096)) ∧
  (∀ (x y : Reg) (n : Nibble) (s : State), 1 ≤ n.toNat → s.I.toNat + n.toNat - 1 > 4095 →
    HaltsWith s (exec (.drw x y n) s) 4 (max s.I.toNat 4096)) ∧
  (∀ (x : Reg) (s : State), s.I.toNat + 2 > 4095 →
    HaltsWith s (exec (.ldBcd x) s) 4 (max s.I.toNat 4096)) ∧
  (∀ (x : Reg) (s : State), s.I.toNat + x.val > 4095 →
    HaltsWith s (exec (.dumpRegs x) s) 4 (max s.I.toNat 4096) ∧
    HaltsWith s (exec (.fillRegs x) s) 4 (max s.I.toNat 4096)) ∧
  (∀ (i : Instr) (s t : State),
    i.mnemonic ∉ ["DRW_Vx__Vy__n", "LD_B__Vx", "LD__I___Vx", "LD_Vx___I"] →
    exec i s = .next t → t.haltCause = 4 → s.haltCause = 4) ∧
  (∀ (x y : Reg) (n : Nibble) (s t : State), n.toNat = 0 ∨ s.I.toNat + n.toNat - 1 ≤ 4095 →
    exec (.drw x y n) s = .next t → t.haltCause = 4 → s.haltCause = 4) ∧
  (∀ (x : Reg) (s t : State), s.I.toNat + 2 ≤ 4095 →
    exec (.ldBcd x) s = .next t → t.haltCause = 4 → s.haltCause = 4) ∧
  (∀ (x : Reg) (s t : State), s.I.toNat + x.val ≤ 4095 →
    exec (.dumpRegs x) s = .next t ∨ exec (.fillRegs x) s = .next t → t.haltCause = 4 → s.haltCause = 4)

/-! ### Display -/

/-- R101: every cell 0, redraw set, whatever was on the display. -/
def Obligations.ClearScreenClearsEveryCell : Prop :=
  ∀ s : State,
    Selects 0x00E0 .cls ∧
    Ends (exec .cls s) fun t =>
      (∀ col row, t.disp.cell col row = false) ∧ t.redraw = true ∧ t.pc = s.pc + 2 ∧
      KeepsAllBut [.display, .redraw, .pc] s t

/-- DRW for every n, 0 included: the loops of R102 come to R103 item 3's closed form. Every targeted cell
is inverted and no other; VF is 1 if a targeted cell was 1, else 0; redraw is set. Where the sprite leaves
memory it halts and nothing changes, VF included. -/
def Obligations.DrawInvertsExactlyTheTargetedCells : Prop :=
  ∀ (x y : Reg) (n : Nibble) (s : State),
    Selects (0xD000 + 0x100 * x.val + 0x10 * y.val + n.toNat) (.drw x y n) ∧
    (n.toNat = 0 ∨ s.I.toNat + n.toNat - 1 ≤ 4095 → Ends (exec (.drw x y n) s) fun t =>
      (∀ col row, (Targeted s x y n col row → t.disp.cell col row = !s.disp.cell col row) ∧
        (¬Targeted s x y n col row → t.disp.cell col row = s.disp.cell col row)) ∧
      ((∃ col row, Targeted s x y n col row ∧ s.disp.cell col row = true) →
        (t.reg Reg.flag).toNat = 1) ∧
      ((∀ col row, Targeted s x y n col row → s.disp.cell col row = false) →
        (t.reg Reg.flag).toNat = 0) ∧
      KeepsRegsBut [Reg.flag] s t ∧ t.redraw = true ∧ t.pc = s.pc + 2 ∧
      KeepsAllBut [.regs, .display, .redraw, .pc] s t) ∧
    (1 ≤ n.toNat → s.I.toNat + n.toNat - 1 > 4095 →
      HaltsWith s (exec (.drw x y n) s) 4 (max s.I.toNat 4096))

/-- R103 item 6: the same sprite drawn twice at the same origin restores every cell, and the second VF is
1 exactly when a targeted cell was 0 before the first draw. The second draw may name other registers, as
the first may have overwritten the origin in VF. -/
def Obligations.DrawingTwiceRestoresTheDisplay : Prop :=
  ∀ (x y x' y' : Reg) (n : Nibble) (s : State), n.toNat = 0 ∨ s.I.toNat + n.toNat - 1 ≤ 4095 →
    Ends (exec (.drw x y n) s) fun t => t.reg x' = s.reg x → t.reg y' = s.reg y →
      Ends (exec (.drw x' y' n) t) fun u =>
        (∀ col row, u.disp.cell col row = s.disp.cell col row) ∧
        ((u.reg Reg.flag).toNat = 1 ↔
          ∃ col row, Targeted s x y n col row ∧ s.disp.cell col row = false)

/-- R104: a solid 8-pixel row drawn at column 60, row 0 of a clear display sets columns 60 to 63 and 0 to 3
of row 0 and no other cell, without a collision. -/
def Obligations.SpriteWrapsAtTheRightEdge : Prop :=
  ∀ (x y : Reg) (s : State), (s.reg x).toNat = 60 → (s.reg y).toNat = 0 → s.I.toNat ≤ 4095 →
    s.mem.read s.I.toNat = 0xFF#8 → (∀ col row, s.disp.cell col row = false) →
    Ends (exec (.drw x y 1#4) s) fun t =>
      (∀ (col : Fin 64) (row : Fin 32),
        t.disp.cell col row = true ↔ row.val = 0 ∧ (60 ≤ col.val ∨ col.val < 4)) ∧
      t.reg Reg.flag = 0 ∧ t.redraw = true

/-! ### Keys and timers -/

/-- R110, R111: SKP and SKNP test the level of the key whose number V[x] holds; a value above 15
halts with cause 5 and the opcode as value. -/
def Obligations.KeySkipsTestTheKeyNumbered : Prop :=
  ∀ (x : Reg) (s : State),
    Selects (0xE09E + 0x100 * x.val) (.skp x) ∧ Selects (0xE0A1 + 0x100 * x.val) (.sknp x) ∧
    (∀ k : Key, (s.reg x).toNat = k.val →
      Skips s (exec (.skp x) s) (s.key[k.val] = true) ∧
      Skips s (exec (.sknp x) s) (s.key[k.val] = false)) ∧
    ((s.reg x).toNat > 15 →
      HaltsWith s (exec (.skp x) s) 5 s.opcode.toNat ∧
      HaltsWith s (exec (.sknp x) s) 5 s.opcode.toNat)

/-- R112: with no key pressed nothing changes; with keys pressed V[x] gets the number of one of them, which
one being free, and pc advances. The model's own draw counter is left out of the frame (log 2). -/
def Obligations.KeyWaitStoresAPressedKeyOrWaits : Prop :=
  ∀ (x : Reg) (s : State),
    Selects (0xF00A + 0x100 * x.val) (.ldKey x) ∧
    ((∀ k : Key, s.key[k.val] = false) → exec (.ldKey x) s = .next s) ∧
    ((∃ k : Key, s.key[k.val] = true) → Ends (exec (.ldKey x) s) fun t =>
      (∃ k : Key, s.key[k.val] = true ∧ (t.reg x).toNat = k.val) ∧
      KeepsRegsBut [x] s t ∧ t.pc = s.pc + 2 ∧ KeepsAllBut [.regs, .pc, .draws] s t)

/-- R113, R114, and the register effect of R115: the three timer instructions. -/
def Obligations.TimerAccess : Prop :=
  ∀ (x : Reg) (s : State),
    Selects (0xF007 + 0x100 * x.val) (.ldFromDelay x) ∧
    WritesRegs s (exec (.ldFromDelay x) s) [x] (fun t => t.reg x = s.delay) ∧
    Selects (0xF015 + 0x100 * x.val) (.ldToDelay x) ∧
    Ends (exec (.ldToDelay x) s) (fun t =>
      t.delay = s.reg x ∧ t.pc = s.pc + 2 ∧ KeepsAllBut [.delay, .pc] s t) ∧
    Selects (0xF018 + 0x100 * x.val) (.ldToSound x) ∧
    Ends (exec (.ldToSound x) s) (fun t =>
      t.sound = s.reg x ∧ t.pc = s.pc + 2 ∧ KeepsAllBut [.sound, .pc] s t)

/-- R115's corner case: after LD ST, Vx the ticks beep exactly once, at the (v - 1)th, where v >= 2 was
written, and never where 0 or 1 was: the (j + 1)th tick beeps exactly when j + 2 = v. -/
def Obligations.SoundWriteBeepsOnce : Prop :=
  ∀ (x : Reg) (s : State), Ends (exec (.ldToSound x) s) fun t =>
    ∀ j : Nat, (ticks j t).beep = true ↔ j + 2 = (s.reg x).toNat

/-- R133, R136: a tick, of a running, waiting or halted core alike, takes 1 from each nonzero timer and
changes nothing else; it beeps where it decremented `sound` and left 1 there. -/
def Obligations.TickCountsBothTimersDown : Prop :=
  ∀ (loading : Bool) (s : State), Ends (event loading .tick s) fun t =>
    t.delay.toNat = s.delay.toNat - 1 ∧ t.sound.toNat = s.sound.toNat - 1 ∧
    output .tick s = .beep (decide (s.sound.toNat ≠ 0 ∧ t.sound.toNat = 1)) ∧
    KeepsAllBut [.delay, .sound] s t

/-- R134: the tick beeps exactly when its decrement takes `sound` from 2 to 1. -/
def Obligations.TickBeepsOnTwoToOne : Prop :=
  ∀ s : State, output .tick s = .beep (decide (s.sound.toNat = 2 ∧ s.tick.sound.toNat = 1))

/-! ### Halts, reset, host events -/

/-- R62: a step that halts a running core changes nothing but `opcode`, where its fetch succeeded, and the
halt registers. -/
def Obligations.HaltsArePrecise : Prop :=
  ∀ s t : State, s.halted = false → step s = .next t → t.halted = true →
    KeepsAllBut [.opcode, .halt] s t ∧ (s.pc.toNat + 1 > 4095 → t.opcode = s.opcode)

/-- R129: no instruction and no event but `reset` clears `halted`; a step of a halted core does nothing;
the halt registers keep the first cause; `reset` clears them. -/
def Obligations.OnlyResetLeavesAHalt : Prop :=
  (∀ (i : Instr) (s t : State), s.halted = true → exec i s = .next t → t.halted = true) ∧
  (∀ (loading : Bool) (e : Event) (s t : State), s.halted = true → e ≠ .reset →
    event loading e s = .next t →
    t.halted = true ∧ t.haltCause = s.haltCause ∧ t.haltValue = s.haltValue) ∧
  (∀ (loading : Bool) (s : State), s.halted = true → event loading .step s = .next s) ∧
  (∀ (loading : Bool) (s : State), Ends (event loading .reset s) fun t =>
    t.halted = false ∧ t.haltCause = 0 ∧ t.haltValue = 0)

/-- Every instruction, on every state and operands, answers a next state, and so does every step: the
halt is the only way to fail (R120). -/
def Obligations.EveryInstructionAnswersANextState : Prop :=
  (∀ (i : Instr) (s : State), ∃ t, exec i s = .next t) ∧ ∀ s : State, ∃ t, step s = .next t

/-- R25: the state after a `reset` event, whatever the state before, and the machine's reset state. -/
def Obligations.ResetLeavesTheValuesOfTheTable : Prop :=
  ∀ (loading : Bool) (s : State), Ends (event loading .reset s) fun t =>
    ∀ u ∈ [t, State.reset],
      (∀ a, u.mem.read a = 0) ∧ (∀ r, u.reg r = 0) ∧ u.I = 0 ∧ u.pc = 0x0200#16 ∧
      (∀ k : Fin 16, u.stack[k.val] = 0) ∧ u.sp.val = 0 ∧ u.delay = 0 ∧ u.sound = 0 ∧
      (∀ col row, u.disp.cell col row = false) ∧ u.redraw = false ∧
      (∀ k : Key, u.key[k.val] = false) ∧ u.opcode = 0 ∧ u.halted = false ∧
      u.haltCause = 0 ∧ u.haltValue = 0

/-- R130: a core with nothing loaded fetches 0x0000 at 0x200 on its first step and halts with cause 1 and
value 0. -/
def Obligations.UnloadedCoreHaltsOnItsFirstStep : Prop :=
  HaltsWith State.reset (step State.reset) 1 0x0000

/-- R27: what each host event does; the two reads have no effect and return the display and the status.
That a `host_load` which breaks the host's duty is refused by name is the model's choice (log 8). -/
def Obligations.HostEventsDoWhatTheTableSays : Prop :=
  ∀ (loading : Bool) (s : State),
    (∀ (addr : Nat) (byte : Byte), addr < 4096 → Ends (event true (.hostLoad addr byte) s) fun t =>
      (∀ a, t.mem.read a = if a = addr then byte else s.mem.read a) ∧ KeepsAllBut [.memory] s t) ∧
    (∀ (addr : Nat) (byte : Byte), loading = false ∨ 4096 ≤ addr →
      event loading (.hostLoad addr byte) s = .refused .hostDuty) ∧
    (∀ (k : Key) (b : Bool), Ends (event loading (.hostSetKey k b) s) fun t =>
      (∀ j : Key, t.key[j.val] = if j = k then b else s.key[j.val]) ∧ KeepsAllBut [.keys] s t) ∧
    (Ends (event loading .hostClearRedraw s) fun t =>
      t.redraw = false ∧ KeepsAllBut [.redraw] s t) ∧
    event loading .hostReadDisplay s = .next s ∧ output .hostReadDisplay s = .display s.disp ∧
    event loading .hostReadStatus s = .next s ∧
    output .hostReadStatus s =
      .status ⟨s.halted, s.haltCause, s.haltValue, s.opcode, s.redraw⟩

/-! ### Whole-machine rules -/

/-- R12: VF as a side effect is written by the seven flag writers only, and when one of them completes it
leaves 0 or 1 there; an instruction that does not name VF and is no flag writer leaves VF alone. -/
def Obligations.OnlyTheSevenFlagWritersTouchVF : Prop :=
  ∀ (i : Instr) (s t : State), s.halted = false → exec i s = .next t →
    (i.mnemonic ∉ flagWriters → ¬NamesFlag i → t.reg Reg.flag = s.reg Reg.flag) ∧
    (i.mnemonic ∈ flagWriters → t.halted = false →
      t.reg Reg.flag = 0 ∨ t.reg Reg.flag = 1)

/-- R12: no instruction reads VF implicitly. Two states that differ in VF alone are taken by an instruction
that does not name VF to states that differ in VF alone. For RND and LD Vx,K this takes both runs to be given
the same `rnd` and the same pick; in the model they are, since the free values are those of the same draw
count (and, for the pick, the same keys): the model's choice, logs 1 and 2, and no rule of the spec. -/
def Obligations.VFIsReadOnlyWhereNamed : Prop :=
  ∀ (i : Instr) (s t : State) (v : Byte), ¬NamesFlag i → exec i s = .next t →
    Ends (exec i (s.setReg Reg.flag v)) fun u =>
      KeepsRegsBut [Reg.flag] t u ∧ KeepsAllBut [.regs] t u

/-- The "written by" column of R10, for the instructions: which of them can change which part. The column
gives pc to every instruction, so pc has no clause here. The last clause is about the model's own draw
counter (logs 1 and 2), which R10 does not have. -/
def Obligations.EachPartHasItsOwnWriters : Prop :=
  ∀ (i : Instr) (s t : State), exec i s = .next t →
    (i.mnemonic ∉ ["LD_B__Vx", "LD__I___Vx"] → Part.memory.Same s t) ∧
    (i.mnemonic ∉ ["LD_Vx__nn", "ADD_Vx__nn", "LD_Vx__Vy", "OR_Vx__Vy", "AND_Vx__Vy", "XOR_Vx__Vy",
      "ADD_Vx__Vy", "SUB_Vx__Vy", "SHR_Vx", "SUBN_Vx__Vy", "SHL_Vx", "RND_Vx__nn", "LD_Vx___I", "LD_Vx__K",
      "LD_Vx__DT", "DRW_Vx__Vy__n", "ADD_I__Vx"] → Part.regs.Same s t) ∧
    (i.mnemonic ∉ ["LD_I__nnn", "ADD_I__Vx", "LD_F__Vx"] → Part.index.Same s t) ∧
    (i.mnemonic ∉ ["CALL_nnn", "RET"] → Part.stack.Same s t) ∧
    (i.mnemonic ∉ ["LD_DT__Vx"] → Part.delay.Same s t) ∧
    (i.mnemonic ∉ ["LD_ST__Vx"] → Part.sound.Same s t) ∧
    (i.mnemonic ∉ ["CLS", "DRW_Vx__Vy__n"] → Part.display.Same s t ∧ Part.redraw.Same s t) ∧
    (i.mnemonic ∉ ["CALL_nnn", "RET", "SKP_Vx", "SKNP_Vx", "DRW_Vx__Vy__n", "LD_B__Vx", "LD__I___Vx",
      "LD_Vx___I"] → Part.halt.Same s t) ∧
    Part.keys.Same s t ∧ Part.opcode.Same s t ∧
    (i.mnemonic ∉ ["RND_Vx__nn", "LD_Vx__K"] → Part.draws.Same s t)

/-! ### Invariants -/

/-- The reset state meets both invariants. That memory is in canonical form is a property of the model's own
representation (log 9); the rest is R25, R22 and R15. -/
def Obligations.ResetMeetsTheInvariants : Prop :=
  Inv State.reset ∧ PcBounded State.reset

/-- Memory stays canonical, which is a property of the model's own representation (log 9), and the halt
registers stay in agreement, over every step of every state. -/
def Obligations.StepKeepsTheInvariant : Prop :=
  ∀ s t : State, Inv s → step s = .next t → Inv t

/-- R15: pc never exceeds 0x1002 and no saved pc exceeds 0x1000, over every step of every state where this
holds. -/
def Obligations.StepKeepsPcBounded : Prop :=
  ∀ s t : State, PcBounded s → step s = .next t → PcBounded t

/-- Both invariants hold of every state of every run, finite or infinite: any interleaving of steps, ticks,
resets and host events that keeps the host duties. The canonical form of memory is the model's (log 9). -/
def Obligations.EveryReachableStateMeetsTheInvariants : Prop :=
  (∀ s : State, Reachable s → Inv s ∧ PcBounded s) ∧
  ∀ (events : Nat → Event) (states : Nat → State), InfiniteRun events states →
    ∀ n, Inv (states n) ∧ PcBounded (states n)

/-- Every event, not `step` alone, keeps both invariants, from every state that meets them and not from
reachable ones only: ticks, resets and host events too. The canonical form of memory is the model's
(log 9). -/
def Obligations.EveryEventKeepsTheInvariants : Prop :=
  ∀ (loading : Bool) (e : Event) (s t : State), Inv s → PcBounded s → event loading e s = .next t →
    Inv t ∧ PcBounded t

/-! ### Runs and their inputs -/

/-- R9: a finite or infinite sequence of events is a run exactly when it keeps the host duties of R27. The
clauses say it of the constructed core; that a sequence which breaks one has no run is the model's refusal
by name (log 8). -/
def Obligations.SequencesThatKeepTheDutiesAreTheRuns : Prop :=
  (∀ es : List Event, dutiesKept true es = true ↔ ∃ t, runEvents true es State.reset = .next t) ∧
  ∀ events : Nat → Event, DutiesKeptForever events ↔ ∃ states, InfiniteRun events states

/-- The state of R10 is the whole of what instructions work on: from two states that agree in R10's fifteen
rows, whatever their place in the stream of free inputs, every instruction but the two that take a free input
answers states that agree in them. The place in the stream, `draws`, is the model's own (logs 1, 2, 3). -/
def Obligations.OnlyTheTwoFreeInputsSeeTheDrawCounter : Prop :=
  ∀ (i : Instr) (s t : State), i.mnemonic ∉ ["RND_Vx__nn", "LD_Vx__K"] → s.toArch = t.toArch →
    Ends (exec i s) fun u => Ends (exec i t) fun v =>
      u.toArch = v.toArch ∧ u.draws = s.draws ∧ v.draws = t.draws
end

