-- ==== Sys2Proof/Laws/Decode.lean ====
section
/-! SUPPORT. The nibbles and fields of a word put together from nibbles, and the decoder in terms of
them. -/

namespace Sys2Proof

@[simp] theorem regOf_nibOf (r : Reg) : regOf (nibOf r) = r := rfl
@[simp] theorem nibOf_regOf (n : Nibble) : nibOf (regOf n) = n := rfl

@[simp] theorem nib0_ofNibbles (n0 n1 n2 n3 : Nibble) : nib0 (ofNibbles n0 n1 n2 n3) = n0 := by
  apply BitVec.eq_of_getLsbD_eq; intro i hi
  simp only [nib0, ofNibbles, BitVec.getLsbD_append, BitVec.getLsbD_extractLsb']; grind
@[simp] theorem nib1_ofNibbles (n0 n1 n2 n3 : Nibble) : nib1 (ofNibbles n0 n1 n2 n3) = n1 := by
  apply BitVec.eq_of_getLsbD_eq; intro i hi
  simp only [nib1, ofNibbles, BitVec.getLsbD_append, BitVec.getLsbD_extractLsb']; grind
@[simp] theorem nib2_ofNibbles (n0 n1 n2 n3 : Nibble) : nib2 (ofNibbles n0 n1 n2 n3) = n2 := by
  apply BitVec.eq_of_getLsbD_eq; intro i hi
  simp only [nib2, ofNibbles, BitVec.getLsbD_append, BitVec.getLsbD_extractLsb']; grind
@[simp] theorem nib3_ofNibbles (n0 n1 n2 n3 : Nibble) : nib3 (ofNibbles n0 n1 n2 n3) = n3 := by
  apply BitVec.eq_of_getLsbD_eq; intro i hi
  simp only [nib3, ofNibbles, BitVec.getLsbD_append, BitVec.getLsbD_extractLsb']; grind

/-- A word is its four nibbles (30_encoding.md R46). -/
theorem ofNibbles_nib (w : Word) : ofNibbles (nib0 w) (nib1 w) (nib2 w) (nib3 w) = w := by
  apply BitVec.eq_of_getLsbD_eq; intro i hi
  simp only [nib0, nib1, nib2, nib3, ofNibbles, BitVec.getLsbD_append, BitVec.getLsbD_extractLsb']
  grind

/-- Concatenation as a number, the left part in the high bits (00_scope.md R6). -/
theorem toNat_append_eq {n m : Nat} (a : BitVec n) (b : BitVec m) :
    (a ++ b).toNat = a.toNat * 2 ^ m + b.toNat := by
  rw [BitVec.toNat_append, ← Nat.shiftLeft_add_eq_or_of_lt b.isLt, Nat.shiftLeft_eq]

/-- A nibble tuple as a number. -/
theorem toNat_ofNibbles (n0 n1 n2 n3 : Nibble) : (ofNibbles n0 n1 n2 n3).toNat =
    n0.toNat * 4096 + n1.toNat * 256 + n2.toNat * 16 + n3.toNat := by
  simp only [ofNibbles, toNat_append_eq]
  omega

/-- An immediate byte is its two nibbles. -/
@[simp] theorem append_nibbles_byte (b : Byte) :
    ((b.extractLsb' 4 4 : Nibble) ++ (b.extractLsb' 0 4 : Nibble) : BitVec (4 + 4)) = b := by
  apply BitVec.eq_of_getLsbD_eq; intro i hi
  simp only [BitVec.getLsbD_append, BitVec.getLsbD_extractLsb']; grind

/-- An immediate address is its three nibbles. -/
@[simp] theorem append_nibbles_addr (a : Addr12) :
    ((a.extractLsb' 8 4 : Nibble) ++
      ((a.extractLsb' 4 4 : Nibble) ++ (a.extractLsb' 0 4 : Nibble) : BitVec (4 + 4)) :
        BitVec (4 + 8)) = a := by
  apply BitVec.eq_of_getLsbD_eq; intro i hi
  simp only [BitVec.getLsbD_append, BitVec.getLsbD_extractLsb']; grind

/-- Decoding the word of a nibble tuple is decoding the tuple. -/
theorem decode_ofNibbles (n0 n1 n2 n3 : Nibble) :
    decode (ofNibbles n0 n1 n2 n3) =
      match decodeNibbles n0 n1 n2 n3 with
      | some i => .ok i
      | none => .error (.unknownWord (ofNibbles n0 n1 n2 n3)) := by
  cases h : decodeNibbles n0 n1 n2 n3 <;>
    simp only [decode, nib0_ofNibbles, nib1_ofNibbles, nib2_ofNibbles, nib3_ofNibbles, h]

/-- A word that decodes to an instruction has a nibble tuple that does. -/
theorem decode_eq_ok (w : Word) (i : Instr) :
    decode w = .ok i ↔ decodeNibbles (nib0 w) (nib1 w) (nib2 w) (nib3 w) = some i := by
  unfold decode
  split <;> simp_all

/-! ### The formats of R48 as numbers -/

theorem formatA_eq_ofNat (n0 : Nibble) (nnn : Addr12) :
    formatA n0 nnn = BitVec.ofNat 16 (n0.toNat * 0x1000 + nnn.toNat) := by
  apply BitVec.eq_of_toNat_eq
  have := nnn.isLt
  have := n0.isLt
  simp [formatA, toNat_ofNibbles, BitVec.extractLsb'_toNat]; omega

theorem formatXI_eq_ofNat (n0 : Nibble) (x : Reg) (nn : Byte) :
    formatXI n0 x nn = BitVec.ofNat 16 (n0.toNat * 0x1000 + 0x100 * x.val + nn.toNat) := by
  apply BitVec.eq_of_toNat_eq
  have := nn.isLt
  have := n0.isLt
  have := x.isLt
  simp [formatXI, nibOf, toNat_ofNibbles, BitVec.extractLsb'_toNat]; omega

theorem formatX_eq_ofNat (n0 : Nibble) (x : Reg) (kk : Byte) :
    formatX n0 x kk = BitVec.ofNat 16 (n0.toNat * 0x1000 + 0x100 * x.val + kk.toNat) :=
  formatXI_eq_ofNat n0 x kk

theorem formatXYN_eq_ofNat (n0 : Nibble) (x y : Reg) (n : Nibble) :
    formatXYN n0 x y n =
      BitVec.ofNat 16 (n0.toNat * 0x1000 + 0x100 * x.val + 0x10 * y.val + n.toNat) := by
  apply BitVec.eq_of_toNat_eq
  have := n.isLt
  have := n0.isLt
  have := x.isLt
  have := y.isLt
  simp [formatXYN, nibOf, toNat_ofNibbles]; omega

theorem formatXY_eq_ofNat (n0 : Nibble) (x y : Reg) (n3 : Nibble) :
    formatXY n0 x y n3 =
      BitVec.ofNat 16 (n0.toNat * 0x1000 + 0x100 * x.val + 0x10 * y.val + n3.toNat) :=
  formatXYN_eq_ofNat n0 x y n3

/-- The only rejection of a word is by its own name. -/
theorem decode_error (w : Word) (r : Reject) (h : decode w = .error r) : r = .unknownWord w := by
  unfold decode at h
  split at h <;> simp_all

end Sys2Proof
end

