-- ==== Sys2Proof/Laws/Memory.lean ====
section
/-! SUPPORT. The laws of memory: read after write, and that every operation keeps the canonical form. -/

namespace Sys2Proof.Machine.Memory

@[simp] theorem read_nil (a : Nat) : Memory.read [] a = unlisted := rfl

theorem read_cons (c : Host.Cell) (m : Memory) (a : Nat) :
    Memory.read (c :: m) a = if c.1 = a then c.2 else Memory.read m a := rfl

theorem read_erase (m : Memory) (a b : Nat) :
    (m.erase a).read b = if b = a then unlisted else m.read b := by
  induction m with
  | nil => simp [erase]
  | cons c m ih =>
    simp only [erase, List.filter_cons, bne_iff_ne] at ih ⊢
    split
    · rw [read_cons, read_cons, ih]; grind
    · rw [read_cons, ih]; grind

/-- A cell inserted where its address is not listed is the one read there. -/
theorem read_insert_same (m : Memory) (a : Nat) (v : Byte) (h : ∀ c ∈ m, c.1 ≠ a) :
    Memory.read (Memory.insert a v m) a = v := by
  induction m with
  | nil => simp [insert, read_cons]
  | cons c m ih =>
    simp only [insert]
    split
    · simp [read_cons]
    · rw [read_cons, if_neg (h c (by simp)), ih (fun d hd => h d (by simp [hd]))]

/-- A cell inserted is not seen at another address. -/
theorem read_insert_other (m : Memory) (a b : Nat) (v : Byte) (h : b ≠ a) :
    Memory.read (Memory.insert a v m) b = m.read b := by
  induction m with
  | nil => simp [insert, read_cons, h.symm]
  | cons c m ih =>
    simp only [insert]
    split
    · rw [read_cons, if_neg (by exact h.symm)]
    · rw [read_cons, read_cons, ih]

theorem mem_erase (m : Memory) (a : Nat) (c : Host.Cell) : c ∈ m.erase a ↔ c ∈ m ∧ c.1 ≠ a := by
  simp [erase]

theorem mem_insert (m : Memory) (a : Nat) (v : Byte) (c : Host.Cell) :
    c ∈ Memory.insert a v m ↔ c = (a, v) ∨ c ∈ m := by
  induction m with
  | nil => simp [insert]
  | cons d m ih =>
    simp only [insert]
    split
    · simp
    · simp [ih]; grind

/-- A read after a write to the same address gives the byte written. -/
@[simp] theorem read_write_same (m : Memory) (a : Nat) (v : Byte) : (m.write a v).read a = v := by
  unfold write
  split
  · rename_i h; simp [read_erase, h]
  · exact read_insert_same _ _ _ fun c hc => ((mem_erase m a c).1 hc).2

/-- A write leaves every other address alone. -/
theorem read_write_other (m : Memory) (a b : Nat) (v : Byte) (h : b ≠ a) :
    (m.write a v).read b = m.read b := by
  unfold write
  split
  · simp [read_erase, h]
  · rw [read_insert_other _ _ _ _ h, read_erase, if_neg h]

theorem read_write (m : Memory) (a b : Nat) (v : Byte) :
    (m.write a v).read b = if b = a then v else m.read b := by
  split
  · rename_i h; rw [h, read_write_same]
  · rename_i h; exact read_write_other m a b v h

/-- Bytes stored in ascending order: inside the stored range the byte stored, outside the old one. -/
theorem read_writeBytes (bs : List Byte) (m : Memory) (a b : Nat) :
    (m.writeBytes a bs).read b =
      if a ≤ b then (bs[b - a]?).getD (m.read b) else m.read b := by
  induction bs generalizing m a with
  | nil => simp [writeBytes]
  | cons v bs ih =>
    rw [writeBytes, ih, read_write]
    rcases Nat.lt_trichotomy a b with h | h | h
    · rw [if_pos (show a + 1 ≤ b from h), if_neg (by omega), if_pos (by omega), show b - a = (b - (a + 1)) + 1 by omega]
      simp
    · subst h; simp
    · rw [if_neg (by omega), if_neg (by omega), if_neg (by omega)]

/-! ### The canonical form -/

theorem wf_nil : Memory.wf [] := by decide

theorem pairwise_insert (m : Memory) (a : Nat) (v : Byte)
    (hp : m.Pairwise fun c d => c.1 < d.1) (h : ∀ c ∈ m, c.1 ≠ a) :
    (Memory.insert a v m).Pairwise fun c d => c.1 < d.1 := by
  induction m with
  | nil => simp [insert]
  | cons c m ih =>
    rw [List.pairwise_cons] at hp
    simp only [insert]
    split
    · rename_i hlt
      refine List.pairwise_cons.2 ⟨fun d hd => ?_, List.pairwise_cons.2 hp⟩
      rcases List.mem_cons.1 hd with rfl | hd
      · exact hlt
      · exact Nat.lt_trans hlt (hp.1 d hd)
    · rename_i hge
      have hne := h c (by simp)
      refine List.pairwise_cons.2 ⟨fun d hd => ?_, ih hp.2 fun d hd => h d (by simp [hd])⟩
      rcases (mem_insert m a v d).1 hd with rfl | hd
      · show c.1 < a; omega
      · exact hp.1 d hd

/-- Every write inside memory keeps the canonical form. -/
theorem wf_write (m : Memory) (a : Nat) (v : Byte) (hm : m.wf) (ha : a < Config.memSize) :
    (m.write a v).wf := by
  have he : (m.erase a).wf :=
    ⟨hm.1.filter _, fun c hc => hm.2 c ((mem_erase m a c).1 hc).1⟩
  unfold write
  split
  · exact he
  · rename_i hv
    refine ⟨pairwise_insert _ a v he.1 fun c hc => ((mem_erase m a c).1 hc).2, fun c hc => ?_⟩
    rcases (mem_insert _ a v c).1 hc with rfl | hc
    · exact ⟨ha, hv⟩
    · exact he.2 c hc

/-- Storing bytes inside memory keeps the canonical form. -/
theorem wf_writeBytes (bs : List Byte) (m : Memory) (a : Nat) (hm : m.wf)
    (ha : a + bs.length ≤ Config.memSize) : (m.writeBytes a bs).wf := by
  induction bs generalizing m a with
  | nil => exact hm
  | cons v bs ih =>
    simp only [List.length_cons] at ha
    exact ih (m.write a v) (a + 1) (wf_write m a v hm (by omega)) (by omega)

/-- Two memories in canonical form that read alike are equal data. -/
theorem ext_of_wf (m n : Memory) (hm : m.wf) (hn : n.wf) (h : ∀ a, m.read a = n.read a) : m = n := by
  have key : ∀ (p : Memory), p.wf → ∀ c : Host.Cell, c ∈ p ↔ p.read c.1 = c.2 ∧ c.2 ≠ unlisted := by
    intro p hp
    induction p with
    | nil => intro c; simp; grind
    | cons d p ih =>
      intro c
      have hp' : Memory.wf p := ⟨(List.pairwise_cons.1 hp.1).2, fun e he => hp.2 e (by simp [he])⟩
      have hd := (List.pairwise_cons.1 hp.1).1
      rw [List.mem_cons, read_cons, ih hp' c]
      have hdv := (hp.2 d (by simp)).2
      constructor
      · rintro (rfl | ⟨h1, h2⟩)
        · simp [hdv]
        · have : c ∈ p := (ih hp' c).2 ⟨h1, h2⟩
          rw [if_neg (by have := hd c this; omega)]
          exact ⟨h1, h2⟩
      · rintro ⟨h1, h2⟩
        split at h1
        · left; rename_i he; exact Prod.ext he.symm h1.symm
        · exact Or.inr ⟨h1, h2⟩
  have irr : ∀ p : Memory, p.wf → p.Pairwise fun c d : Host.Cell => c.1 < d.1 := fun p hp => hp.1
  refine List.Perm.eq_of_pairwise (le := fun c d : Host.Cell => c.1 < d.1) ?_ (irr m hm) (irr n hn) ?_
  · intro a b _ _ h1 h2; exact absurd (Nat.lt_trans h1 h2) (Nat.lt_irrefl _)
  · have nd : ∀ p : Memory, p.wf → p.Nodup := fun p hp =>
      hp.1.imp fun {a b} hab => by rintro rfl; exact Nat.lt_irrefl _ hab
    rw [List.perm_ext_iff_of_nodup (nd m hm) (nd n hn)]
    intro c; rw [key m hm, key n hn, h]

end Sys2Proof.Machine.Memory
end

