-- ==== Sys2Proof/Laws/State.lean ====
section
/-! SUPPORT. What each update of the state does to each field: one lemma per field per update, true by
`rfl`, so that no later proof unfolds a record update. The composed updates (`skipIf`, `setFlag`,
`setRegAndFlag`, `tick`) reduce to these by their own unfolding lemmas at the end. -/

namespace Sys2Proof.Machine

variable (s : State)

/-! ### `setReg` -/

@[simp] theorem State.setReg_mem (x : Reg) (v : Byte) : (s.setReg x v).mem = s.mem := rfl
@[simp] theorem State.setReg_V (x : Reg) (v : Byte) : (s.setReg x v).V = s.V.set x.val v := rfl
@[simp] theorem State.setReg_I (x : Reg) (v : Byte) : (s.setReg x v).I = s.I := rfl
@[simp] theorem State.setReg_pc (x : Reg) (v : Byte) : (s.setReg x v).pc = s.pc := rfl
@[simp] theorem State.setReg_stack (x : Reg) (v : Byte) : (s.setReg x v).stack = s.stack := rfl
@[simp] theorem State.setReg_sp (x : Reg) (v : Byte) : (s.setReg x v).sp = s.sp := rfl
@[simp] theorem State.setReg_delay (x : Reg) (v : Byte) : (s.setReg x v).delay = s.delay := rfl
@[simp] theorem State.setReg_sound (x : Reg) (v : Byte) : (s.setReg x v).sound = s.sound := rfl
@[simp] theorem State.setReg_disp (x : Reg) (v : Byte) : (s.setReg x v).disp = s.disp := rfl
@[simp] theorem State.setReg_redraw (x : Reg) (v : Byte) : (s.setReg x v).redraw = s.redraw := rfl
@[simp] theorem State.setReg_key (x : Reg) (v : Byte) : (s.setReg x v).key = s.key := rfl
@[simp] theorem State.setReg_opcode (x : Reg) (v : Byte) : (s.setReg x v).opcode = s.opcode := rfl
@[simp] theorem State.setReg_halted (x : Reg) (v : Byte) : (s.setReg x v).halted = s.halted := rfl
@[simp] theorem State.setReg_haltCause (x : Reg) (v : Byte) : (s.setReg x v).haltCause = s.haltCause := rfl
@[simp] theorem State.setReg_haltValue (x : Reg) (v : Byte) : (s.setReg x v).haltValue = s.haltValue := rfl
@[simp] theorem State.setReg_draws (x : Reg) (v : Byte) : (s.setReg x v).draws = s.draws := rfl

/-! ### `setRegsBelow` -/

@[simp] theorem State.setRegsBelow_mem (n : Nat) (f : Nat → Byte) : (s.setRegsBelow n f).mem = s.mem := rfl
@[simp] theorem State.setRegsBelow_V (n : Nat) (f : Nat → Byte) : (s.setRegsBelow n f).V = Vector.ofFn fun k : Fin 16 => if k.val < n then f k.val else s.V[k.val] := rfl
@[simp] theorem State.setRegsBelow_I (n : Nat) (f : Nat → Byte) : (s.setRegsBelow n f).I = s.I := rfl
@[simp] theorem State.setRegsBelow_pc (n : Nat) (f : Nat → Byte) : (s.setRegsBelow n f).pc = s.pc := rfl
@[simp] theorem State.setRegsBelow_stack (n : Nat) (f : Nat → Byte) : (s.setRegsBelow n f).stack = s.stack := rfl
@[simp] theorem State.setRegsBelow_sp (n : Nat) (f : Nat → Byte) : (s.setRegsBelow n f).sp = s.sp := rfl
@[simp] theorem State.setRegsBelow_delay (n : Nat) (f : Nat → Byte) : (s.setRegsBelow n f).delay = s.delay := rfl
@[simp] theorem State.setRegsBelow_sound (n : Nat) (f : Nat → Byte) : (s.setRegsBelow n f).sound = s.sound := rfl
@[simp] theorem State.setRegsBelow_disp (n : Nat) (f : Nat → Byte) : (s.setRegsBelow n f).disp = s.disp := rfl
@[simp] theorem State.setRegsBelow_redraw (n : Nat) (f : Nat → Byte) : (s.setRegsBelow n f).redraw = s.redraw := rfl
@[simp] theorem State.setRegsBelow_key (n : Nat) (f : Nat → Byte) : (s.setRegsBelow n f).key = s.key := rfl
@[simp] theorem State.setRegsBelow_opcode (n : Nat) (f : Nat → Byte) : (s.setRegsBelow n f).opcode = s.opcode := rfl
@[simp] theorem State.setRegsBelow_halted (n : Nat) (f : Nat → Byte) : (s.setRegsBelow n f).halted = s.halted := rfl
@[simp] theorem State.setRegsBelow_haltCause (n : Nat) (f : Nat → Byte) : (s.setRegsBelow n f).haltCause = s.haltCause := rfl
@[simp] theorem State.setRegsBelow_haltValue (n : Nat) (f : Nat → Byte) : (s.setRegsBelow n f).haltValue = s.haltValue := rfl
@[simp] theorem State.setRegsBelow_draws (n : Nat) (f : Nat → Byte) : (s.setRegsBelow n f).draws = s.draws := rfl

/-! ### `setIndex` -/

@[simp] theorem State.setIndex_mem (v : Word) : (s.setIndex v).mem = s.mem := rfl
@[simp] theorem State.setIndex_V (v : Word) : (s.setIndex v).V = s.V := rfl
@[simp] theorem State.setIndex_I (v : Word) : (s.setIndex v).I = v := rfl
@[simp] theorem State.setIndex_pc (v : Word) : (s.setIndex v).pc = s.pc := rfl
@[simp] theorem State.setIndex_stack (v : Word) : (s.setIndex v).stack = s.stack := rfl
@[simp] theorem State.setIndex_sp (v : Word) : (s.setIndex v).sp = s.sp := rfl
@[simp] theorem State.setIndex_delay (v : Word) : (s.setIndex v).delay = s.delay := rfl
@[simp] theorem State.setIndex_sound (v : Word) : (s.setIndex v).sound = s.sound := rfl
@[simp] theorem State.setIndex_disp (v : Word) : (s.setIndex v).disp = s.disp := rfl
@[simp] theorem State.setIndex_redraw (v : Word) : (s.setIndex v).redraw = s.redraw := rfl
@[simp] theorem State.setIndex_key (v : Word) : (s.setIndex v).key = s.key := rfl
@[simp] theorem State.setIndex_opcode (v : Word) : (s.setIndex v).opcode = s.opcode := rfl
@[simp] theorem State.setIndex_halted (v : Word) : (s.setIndex v).halted = s.halted := rfl
@[simp] theorem State.setIndex_haltCause (v : Word) : (s.setIndex v).haltCause = s.haltCause := rfl
@[simp] theorem State.setIndex_haltValue (v : Word) : (s.setIndex v).haltValue = s.haltValue := rfl
@[simp] theorem State.setIndex_draws (v : Word) : (s.setIndex v).draws = s.draws := rfl

/-! ### `setDelay` -/

@[simp] theorem State.setDelay_mem (v : Byte) : (s.setDelay v).mem = s.mem := rfl
@[simp] theorem State.setDelay_V (v : Byte) : (s.setDelay v).V = s.V := rfl
@[simp] theorem State.setDelay_I (v : Byte) : (s.setDelay v).I = s.I := rfl
@[simp] theorem State.setDelay_pc (v : Byte) : (s.setDelay v).pc = s.pc := rfl
@[simp] theorem State.setDelay_stack (v : Byte) : (s.setDelay v).stack = s.stack := rfl
@[simp] theorem State.setDelay_sp (v : Byte) : (s.setDelay v).sp = s.sp := rfl
@[simp] theorem State.setDelay_delay (v : Byte) : (s.setDelay v).delay = v := rfl
@[simp] theorem State.setDelay_sound (v : Byte) : (s.setDelay v).sound = s.sound := rfl
@[simp] theorem State.setDelay_disp (v : Byte) : (s.setDelay v).disp = s.disp := rfl
@[simp] theorem State.setDelay_redraw (v : Byte) : (s.setDelay v).redraw = s.redraw := rfl
@[simp] theorem State.setDelay_key (v : Byte) : (s.setDelay v).key = s.key := rfl
@[simp] theorem State.setDelay_opcode (v : Byte) : (s.setDelay v).opcode = s.opcode := rfl
@[simp] theorem State.setDelay_halted (v : Byte) : (s.setDelay v).halted = s.halted := rfl
@[simp] theorem State.setDelay_haltCause (v : Byte) : (s.setDelay v).haltCause = s.haltCause := rfl
@[simp] theorem State.setDelay_haltValue (v : Byte) : (s.setDelay v).haltValue = s.haltValue := rfl
@[simp] theorem State.setDelay_draws (v : Byte) : (s.setDelay v).draws = s.draws := rfl

/-! ### `setSound` -/

@[simp] theorem State.setSound_mem (v : Byte) : (s.setSound v).mem = s.mem := rfl
@[simp] theorem State.setSound_V (v : Byte) : (s.setSound v).V = s.V := rfl
@[simp] theorem State.setSound_I (v : Byte) : (s.setSound v).I = s.I := rfl
@[simp] theorem State.setSound_pc (v : Byte) : (s.setSound v).pc = s.pc := rfl
@[simp] theorem State.setSound_stack (v : Byte) : (s.setSound v).stack = s.stack := rfl
@[simp] theorem State.setSound_sp (v : Byte) : (s.setSound v).sp = s.sp := rfl
@[simp] theorem State.setSound_delay (v : Byte) : (s.setSound v).delay = s.delay := rfl
@[simp] theorem State.setSound_sound (v : Byte) : (s.setSound v).sound = v := rfl
@[simp] theorem State.setSound_disp (v : Byte) : (s.setSound v).disp = s.disp := rfl
@[simp] theorem State.setSound_redraw (v : Byte) : (s.setSound v).redraw = s.redraw := rfl
@[simp] theorem State.setSound_key (v : Byte) : (s.setSound v).key = s.key := rfl
@[simp] theorem State.setSound_opcode (v : Byte) : (s.setSound v).opcode = s.opcode := rfl
@[simp] theorem State.setSound_halted (v : Byte) : (s.setSound v).halted = s.halted := rfl
@[simp] theorem State.setSound_haltCause (v : Byte) : (s.setSound v).haltCause = s.haltCause := rfl
@[simp] theorem State.setSound_haltValue (v : Byte) : (s.setSound v).haltValue = s.haltValue := rfl
@[simp] theorem State.setSound_draws (v : Byte) : (s.setSound v).draws = s.draws := rfl

/-! ### `setMem` -/

@[simp] theorem State.setMem_mem (m : Memory) : (s.setMem m).mem = m := rfl
@[simp] theorem State.setMem_V (m : Memory) : (s.setMem m).V = s.V := rfl
@[simp] theorem State.setMem_I (m : Memory) : (s.setMem m).I = s.I := rfl
@[simp] theorem State.setMem_pc (m : Memory) : (s.setMem m).pc = s.pc := rfl
@[simp] theorem State.setMem_stack (m : Memory) : (s.setMem m).stack = s.stack := rfl
@[simp] theorem State.setMem_sp (m : Memory) : (s.setMem m).sp = s.sp := rfl
@[simp] theorem State.setMem_delay (m : Memory) : (s.setMem m).delay = s.delay := rfl
@[simp] theorem State.setMem_sound (m : Memory) : (s.setMem m).sound = s.sound := rfl
@[simp] theorem State.setMem_disp (m : Memory) : (s.setMem m).disp = s.disp := rfl
@[simp] theorem State.setMem_redraw (m : Memory) : (s.setMem m).redraw = s.redraw := rfl
@[simp] theorem State.setMem_key (m : Memory) : (s.setMem m).key = s.key := rfl
@[simp] theorem State.setMem_opcode (m : Memory) : (s.setMem m).opcode = s.opcode := rfl
@[simp] theorem State.setMem_halted (m : Memory) : (s.setMem m).halted = s.halted := rfl
@[simp] theorem State.setMem_haltCause (m : Memory) : (s.setMem m).haltCause = s.haltCause := rfl
@[simp] theorem State.setMem_haltValue (m : Memory) : (s.setMem m).haltValue = s.haltValue := rfl
@[simp] theorem State.setMem_draws (m : Memory) : (s.setMem m).draws = s.draws := rfl

/-! ### `advance` -/

@[simp] theorem State.advance_mem (k : Word) : (s.advance k).mem = s.mem := rfl
@[simp] theorem State.advance_V (k : Word) : (s.advance k).V = s.V := rfl
@[simp] theorem State.advance_I (k : Word) : (s.advance k).I = s.I := rfl
@[simp] theorem State.advance_pc (k : Word) : (s.advance k).pc = s.pc + k := rfl
@[simp] theorem State.advance_stack (k : Word) : (s.advance k).stack = s.stack := rfl
@[simp] theorem State.advance_sp (k : Word) : (s.advance k).sp = s.sp := rfl
@[simp] theorem State.advance_delay (k : Word) : (s.advance k).delay = s.delay := rfl
@[simp] theorem State.advance_sound (k : Word) : (s.advance k).sound = s.sound := rfl
@[simp] theorem State.advance_disp (k : Word) : (s.advance k).disp = s.disp := rfl
@[simp] theorem State.advance_redraw (k : Word) : (s.advance k).redraw = s.redraw := rfl
@[simp] theorem State.advance_key (k : Word) : (s.advance k).key = s.key := rfl
@[simp] theorem State.advance_opcode (k : Word) : (s.advance k).opcode = s.opcode := rfl
@[simp] theorem State.advance_halted (k : Word) : (s.advance k).halted = s.halted := rfl
@[simp] theorem State.advance_haltCause (k : Word) : (s.advance k).haltCause = s.haltCause := rfl
@[simp] theorem State.advance_haltValue (k : Word) : (s.advance k).haltValue = s.haltValue := rfl
@[simp] theorem State.advance_draws (k : Word) : (s.advance k).draws = s.draws := rfl

/-! ### `jump` -/

@[simp] theorem State.jump_mem (w : Word) : (s.jump w).mem = s.mem := rfl
@[simp] theorem State.jump_V (w : Word) : (s.jump w).V = s.V := rfl
@[simp] theorem State.jump_I (w : Word) : (s.jump w).I = s.I := rfl
@[simp] theorem State.jump_pc (w : Word) : (s.jump w).pc = w := rfl
@[simp] theorem State.jump_stack (w : Word) : (s.jump w).stack = s.stack := rfl
@[simp] theorem State.jump_sp (w : Word) : (s.jump w).sp = s.sp := rfl
@[simp] theorem State.jump_delay (w : Word) : (s.jump w).delay = s.delay := rfl
@[simp] theorem State.jump_sound (w : Word) : (s.jump w).sound = s.sound := rfl
@[simp] theorem State.jump_disp (w : Word) : (s.jump w).disp = s.disp := rfl
@[simp] theorem State.jump_redraw (w : Word) : (s.jump w).redraw = s.redraw := rfl
@[simp] theorem State.jump_key (w : Word) : (s.jump w).key = s.key := rfl
@[simp] theorem State.jump_opcode (w : Word) : (s.jump w).opcode = s.opcode := rfl
@[simp] theorem State.jump_halted (w : Word) : (s.jump w).halted = s.halted := rfl
@[simp] theorem State.jump_haltCause (w : Word) : (s.jump w).haltCause = s.haltCause := rfl
@[simp] theorem State.jump_haltValue (w : Word) : (s.jump w).haltValue = s.haltValue := rfl
@[simp] theorem State.jump_draws (w : Word) : (s.jump w).draws = s.draws := rfl

/-! ### `latch` -/

@[simp] theorem State.latch_mem (w : Word) : (s.latch w).mem = s.mem := rfl
@[simp] theorem State.latch_V (w : Word) : (s.latch w).V = s.V := rfl
@[simp] theorem State.latch_I (w : Word) : (s.latch w).I = s.I := rfl
@[simp] theorem State.latch_pc (w : Word) : (s.latch w).pc = s.pc := rfl
@[simp] theorem State.latch_stack (w : Word) : (s.latch w).stack = s.stack := rfl
@[simp] theorem State.latch_sp (w : Word) : (s.latch w).sp = s.sp := rfl
@[simp] theorem State.latch_delay (w : Word) : (s.latch w).delay = s.delay := rfl
@[simp] theorem State.latch_sound (w : Word) : (s.latch w).sound = s.sound := rfl
@[simp] theorem State.latch_disp (w : Word) : (s.latch w).disp = s.disp := rfl
@[simp] theorem State.latch_redraw (w : Word) : (s.latch w).redraw = s.redraw := rfl
@[simp] theorem State.latch_key (w : Word) : (s.latch w).key = s.key := rfl
@[simp] theorem State.latch_opcode (w : Word) : (s.latch w).opcode = w := rfl
@[simp] theorem State.latch_halted (w : Word) : (s.latch w).halted = s.halted := rfl
@[simp] theorem State.latch_haltCause (w : Word) : (s.latch w).haltCause = s.haltCause := rfl
@[simp] theorem State.latch_haltValue (w : Word) : (s.latch w).haltValue = s.haltValue := rfl
@[simp] theorem State.latch_draws (w : Word) : (s.latch w).draws = s.draws := rfl

/-! ### `drawn` -/

@[simp] theorem State.drawn_mem : (s.drawn).mem = s.mem := rfl
@[simp] theorem State.drawn_V : (s.drawn).V = s.V := rfl
@[simp] theorem State.drawn_I : (s.drawn).I = s.I := rfl
@[simp] theorem State.drawn_pc : (s.drawn).pc = s.pc := rfl
@[simp] theorem State.drawn_stack : (s.drawn).stack = s.stack := rfl
@[simp] theorem State.drawn_sp : (s.drawn).sp = s.sp := rfl
@[simp] theorem State.drawn_delay : (s.drawn).delay = s.delay := rfl
@[simp] theorem State.drawn_sound : (s.drawn).sound = s.sound := rfl
@[simp] theorem State.drawn_disp : (s.drawn).disp = s.disp := rfl
@[simp] theorem State.drawn_redraw : (s.drawn).redraw = s.redraw := rfl
@[simp] theorem State.drawn_key : (s.drawn).key = s.key := rfl
@[simp] theorem State.drawn_opcode : (s.drawn).opcode = s.opcode := rfl
@[simp] theorem State.drawn_halted : (s.drawn).halted = s.halted := rfl
@[simp] theorem State.drawn_haltCause : (s.drawn).haltCause = s.haltCause := rfl
@[simp] theorem State.drawn_haltValue : (s.drawn).haltValue = s.haltValue := rfl
@[simp] theorem State.drawn_draws : (s.drawn).draws = s.draws + 1 := rfl

/-! ### `paint` -/

@[simp] theorem State.paint_mem (d : Display) : (s.paint d).mem = s.mem := rfl
@[simp] theorem State.paint_V (d : Display) : (s.paint d).V = s.V := rfl
@[simp] theorem State.paint_I (d : Display) : (s.paint d).I = s.I := rfl
@[simp] theorem State.paint_pc (d : Display) : (s.paint d).pc = s.pc := rfl
@[simp] theorem State.paint_stack (d : Display) : (s.paint d).stack = s.stack := rfl
@[simp] theorem State.paint_sp (d : Display) : (s.paint d).sp = s.sp := rfl
@[simp] theorem State.paint_delay (d : Display) : (s.paint d).delay = s.delay := rfl
@[simp] theorem State.paint_sound (d : Display) : (s.paint d).sound = s.sound := rfl
@[simp] theorem State.paint_disp (d : Display) : (s.paint d).disp = d := rfl
@[simp] theorem State.paint_redraw (d : Display) : (s.paint d).redraw = true := rfl
@[simp] theorem State.paint_key (d : Display) : (s.paint d).key = s.key := rfl
@[simp] theorem State.paint_opcode (d : Display) : (s.paint d).opcode = s.opcode := rfl
@[simp] theorem State.paint_halted (d : Display) : (s.paint d).halted = s.halted := rfl
@[simp] theorem State.paint_haltCause (d : Display) : (s.paint d).haltCause = s.haltCause := rfl
@[simp] theorem State.paint_haltValue (d : Display) : (s.paint d).haltValue = s.haltValue := rfl
@[simp] theorem State.paint_draws (d : Display) : (s.paint d).draws = s.draws := rfl

/-! ### `takeHalt` -/

@[simp] theorem State.takeHalt_mem (c : HaltCause) (v : Nat) : (s.takeHalt c v).mem = s.mem := rfl
@[simp] theorem State.takeHalt_V (c : HaltCause) (v : Nat) : (s.takeHalt c v).V = s.V := rfl
@[simp] theorem State.takeHalt_I (c : HaltCause) (v : Nat) : (s.takeHalt c v).I = s.I := rfl
@[simp] theorem State.takeHalt_pc (c : HaltCause) (v : Nat) : (s.takeHalt c v).pc = s.pc := rfl
@[simp] theorem State.takeHalt_stack (c : HaltCause) (v : Nat) : (s.takeHalt c v).stack = s.stack := rfl
@[simp] theorem State.takeHalt_sp (c : HaltCause) (v : Nat) : (s.takeHalt c v).sp = s.sp := rfl
@[simp] theorem State.takeHalt_delay (c : HaltCause) (v : Nat) : (s.takeHalt c v).delay = s.delay := rfl
@[simp] theorem State.takeHalt_sound (c : HaltCause) (v : Nat) : (s.takeHalt c v).sound = s.sound := rfl
@[simp] theorem State.takeHalt_disp (c : HaltCause) (v : Nat) : (s.takeHalt c v).disp = s.disp := rfl
@[simp] theorem State.takeHalt_redraw (c : HaltCause) (v : Nat) : (s.takeHalt c v).redraw = s.redraw := rfl
@[simp] theorem State.takeHalt_key (c : HaltCause) (v : Nat) : (s.takeHalt c v).key = s.key := rfl
@[simp] theorem State.takeHalt_opcode (c : HaltCause) (v : Nat) : (s.takeHalt c v).opcode = s.opcode := rfl
@[simp] theorem State.takeHalt_halted (c : HaltCause) (v : Nat) : (s.takeHalt c v).halted = true := rfl
@[simp] theorem State.takeHalt_haltCause (c : HaltCause) (v : Nat) : (s.takeHalt c v).haltCause = c.code := rfl
@[simp] theorem State.takeHalt_haltValue (c : HaltCause) (v : Nat) : (s.takeHalt c v).haltValue = BitVec.ofNat 16 v := rfl
@[simp] theorem State.takeHalt_draws (c : HaltCause) (v : Nat) : (s.takeHalt c v).draws = s.draws := rfl

/-! ### `setKey` -/

@[simp] theorem State.setKey_mem (k : Key) (b : Bool) : (s.setKey k b).mem = s.mem := rfl
@[simp] theorem State.setKey_V (k : Key) (b : Bool) : (s.setKey k b).V = s.V := rfl
@[simp] theorem State.setKey_I (k : Key) (b : Bool) : (s.setKey k b).I = s.I := rfl
@[simp] theorem State.setKey_pc (k : Key) (b : Bool) : (s.setKey k b).pc = s.pc := rfl
@[simp] theorem State.setKey_stack (k : Key) (b : Bool) : (s.setKey k b).stack = s.stack := rfl
@[simp] theorem State.setKey_sp (k : Key) (b : Bool) : (s.setKey k b).sp = s.sp := rfl
@[simp] theorem State.setKey_delay (k : Key) (b : Bool) : (s.setKey k b).delay = s.delay := rfl
@[simp] theorem State.setKey_sound (k : Key) (b : Bool) : (s.setKey k b).sound = s.sound := rfl
@[simp] theorem State.setKey_disp (k : Key) (b : Bool) : (s.setKey k b).disp = s.disp := rfl
@[simp] theorem State.setKey_redraw (k : Key) (b : Bool) : (s.setKey k b).redraw = s.redraw := rfl
@[simp] theorem State.setKey_key (k : Key) (b : Bool) : (s.setKey k b).key = s.key.set k.val b := rfl
@[simp] theorem State.setKey_opcode (k : Key) (b : Bool) : (s.setKey k b).opcode = s.opcode := rfl
@[simp] theorem State.setKey_halted (k : Key) (b : Bool) : (s.setKey k b).halted = s.halted := rfl
@[simp] theorem State.setKey_haltCause (k : Key) (b : Bool) : (s.setKey k b).haltCause = s.haltCause := rfl
@[simp] theorem State.setKey_haltValue (k : Key) (b : Bool) : (s.setKey k b).haltValue = s.haltValue := rfl
@[simp] theorem State.setKey_draws (k : Key) (b : Bool) : (s.setKey k b).draws = s.draws := rfl

/-! ### `clearRedraw` -/

@[simp] theorem State.clearRedraw_mem : (s.clearRedraw).mem = s.mem := rfl
@[simp] theorem State.clearRedraw_V : (s.clearRedraw).V = s.V := rfl
@[simp] theorem State.clearRedraw_I : (s.clearRedraw).I = s.I := rfl
@[simp] theorem State.clearRedraw_pc : (s.clearRedraw).pc = s.pc := rfl
@[simp] theorem State.clearRedraw_stack : (s.clearRedraw).stack = s.stack := rfl
@[simp] theorem State.clearRedraw_sp : (s.clearRedraw).sp = s.sp := rfl
@[simp] theorem State.clearRedraw_delay : (s.clearRedraw).delay = s.delay := rfl
@[simp] theorem State.clearRedraw_sound : (s.clearRedraw).sound = s.sound := rfl
@[simp] theorem State.clearRedraw_disp : (s.clearRedraw).disp = s.disp := rfl
@[simp] theorem State.clearRedraw_redraw : (s.clearRedraw).redraw = false := rfl
@[simp] theorem State.clearRedraw_key : (s.clearRedraw).key = s.key := rfl
@[simp] theorem State.clearRedraw_opcode : (s.clearRedraw).opcode = s.opcode := rfl
@[simp] theorem State.clearRedraw_halted : (s.clearRedraw).halted = s.halted := rfl
@[simp] theorem State.clearRedraw_haltCause : (s.clearRedraw).haltCause = s.haltCause := rfl
@[simp] theorem State.clearRedraw_haltValue : (s.clearRedraw).haltValue = s.haltValue := rfl
@[simp] theorem State.clearRedraw_draws : (s.clearRedraw).draws = s.draws := rfl

/-! ### The composed updates -/

@[simp] theorem State.skipIf_eq (c : Bool) : s.skipIf c = s.advance (if c then 4 else 2) := rfl
@[simp] theorem State.setFlag_eq (b : Bool) : s.setFlag b = s.setReg Reg.flag (flagByte b) := rfl
@[simp] theorem State.setRegAndFlag_eq (x : Reg) (v : Byte) (b : Bool) :
    s.setRegAndFlag x v b = (s.setReg x v).setReg Reg.flag (flagByte b) := rfl
@[simp] theorem State.tick_eq :
    s.tick = (s.setDelay (countDown s.delay)).setSound (countDown s.sound) := rfl

end Sys2Proof.Machine
end

