-- ==== Sys2Proof/Laws/Ops.lean ====
section
/-! SUPPORT. One lemma per shared operation that says once what it can do. -/

namespace Sys2Proof.Machine

variable (s : State)

/-! ### Registers -/

theorem State.reg_setReg (x r : Reg) (v : Byte) :
    (s.setReg x v).reg r = if r = x then v else s.reg r := by
  simp only [State.reg, State.setReg_V, Vector.getElem_set, eq_comm (a := r), Fin.ext_iff]

@[simp] theorem State.reg_setReg_same (x : Reg) (v : Byte) : (s.setReg x v).reg x = v := by
  simp [State.reg_setReg]

theorem State.reg_setReg_other (x r : Reg) (v : Byte) (h : r ≠ x) :
    (s.setReg x v).reg r = s.reg r := by
  simp [State.reg_setReg, h]

/-- With x = F the flag is what remains (41_alu.md R75). -/
theorem State.reg_setRegAndFlag (x r : Reg) (v : Byte) (b : Bool) :
    (s.setRegAndFlag x v b).reg r =
      if r = Reg.flag then flagByte b else if r = x then v else s.reg r := by
  simp only [State.setRegAndFlag_eq, State.reg_setReg]

@[simp] theorem State.reg_setRegsBelow (n : Nat) (f : Nat → Byte) (r : Reg) :
    (s.setRegsBelow n f).reg r = if r.val < n then f r.val else s.reg r := by
  simp [State.reg]

@[simp] theorem State.reg_setIndex (v : Word) (r : Reg) : (s.setIndex v).reg r = s.reg r := rfl
@[simp] theorem State.reg_setDelay (v : Byte) (r : Reg) : (s.setDelay v).reg r = s.reg r := rfl
@[simp] theorem State.reg_setSound (v : Byte) (r : Reg) : (s.setSound v).reg r = s.reg r := rfl
@[simp] theorem State.reg_setMem (m : Memory) (r : Reg) : (s.setMem m).reg r = s.reg r := rfl
@[simp] theorem State.reg_advance (k : Word) (r : Reg) : (s.advance k).reg r = s.reg r := rfl
@[simp] theorem State.reg_jump (w : Word) (r : Reg) : (s.jump w).reg r = s.reg r := rfl
@[simp] theorem State.reg_latch (w : Word) (r : Reg) : (s.latch w).reg r = s.reg r := rfl
@[simp] theorem State.reg_drawn (r : Reg) : s.drawn.reg r = s.reg r := rfl
@[simp] theorem State.reg_paint (d : Display) (r : Reg) : (s.paint d).reg r = s.reg r := rfl
@[simp] theorem State.reg_takeHalt (c : HaltCause) (v : Nat) (r : Reg) :
    (s.takeHalt c v).reg r = s.reg r := rfl

/-! ### The call stack -/

/-- A push either finds 16 live entries and does nothing, or writes the entry at `sp` and raises `sp`,
changing nothing else (10_state.md R16). -/
theorem State.push_cases (w : Word) :
    (s.sp.val = 16 ∧ s.push? w = none) ∨
    ∃ (h : s.sp.val < 16), s.push? w =
      some { s with stack := s.stack.set s.sp.val w, sp := ⟨s.sp.val + 1, by omega⟩ } := by
  unfold State.push?
  split
  · exact .inr ⟨‹_›, rfl⟩
  · exact .inl ⟨by omega, rfl⟩

/-- A pop either finds an empty stack, or hands out the top entry and lowers `sp`; the entry keeps its
value (R16). -/
theorem State.pop_cases :
    (s.sp.val = 0 ∧ s.pop? = none) ∨
    ∃ (_ : 0 < s.sp.val), s.pop? =
      some ({ s with sp := ⟨s.sp.val - 1, by omega⟩ }, s.stack[s.sp.val - 1]'(by omega)) := by
  unfold State.pop?
  split
  · exact .inr ⟨‹_›, rfl⟩
  · exact .inl ⟨by omega, rfl⟩

/-! ### Accesses (20_memory.md R32) -/

/-- An access set inside memory has no fault. -/
theorem accessFault_eq_none (a n : Nat) : accessFault a n = none ↔ n = 0 ∨ a + n ≤ 4096 := by
  unfold accessFault Config.memSize
  split
  · simp; omega
  · simp; omega

/-- An access set that leaves memory faults at its lowest address that does not exist. -/
theorem accessFault_eq_some (a n bad : Nat) :
    accessFault a n = some bad ↔ 1 ≤ n ∧ 4096 < a + n ∧ bad = max a 4096 := by
  unfold accessFault Config.memSize
  split
  · simp; omega
  · simp; omega

/-- An instruction with an access set either does what it does, or halts and does nothing else. -/
theorem withAccess_cases (a n : Nat) (k : Result) :
    (n = 0 ∨ a + n ≤ 4096) ∧ withAccess s a n k = k ∨
    1 ≤ n ∧ 4096 < a + n ∧ withAccess s a n k = .next (s.takeHalt .addressRange (max a 4096)) := by
  unfold withAccess
  split
  · obtain ⟨h1, h2, rfl⟩ := (accessFault_eq_some _ _ _).1 ‹_›
    exact .inr ⟨h1, h2, rfl⟩
  · exact .inl ⟨(accessFault_eq_none _ _).1 ‹_›, rfl⟩

/-! ### Keys (44_keys_and_timers.md R112) -/

theorem State.mem_pressed (k : Key) : k ∈ s.pressed ↔ s.key[k.val] = true := by
  simp [State.pressed]

/-- A key is picked only among the pressed ones. -/
theorem State.pickKey_pressed (k : Key) (h : s.pickKey = some k) : s.key[k.val] = true :=
  (s.mem_pressed k).1 (List.mem_of_getElem? h)

/-- No key is picked exactly when none is pressed. -/
theorem State.pickKey_eq_none : s.pickKey = none ↔ ∀ k : Key, s.key[k.val] = false := by
  rw [State.pickKey, List.getElem?_eq_none_iff]
  constructor
  · intro h k
    by_contra hk
    have hmem := (s.mem_pressed k).2 (by simpa using hk)
    have hpos : 0 < s.pressed.length := List.length_pos_of_mem hmem
    have := Nat.mod_lt (Config.keyPick s.draws s.key) hpos
    omega
  · intro h
    have : s.pressed = [] := by
      apply List.eq_nil_iff_forall_not_mem.2
      intro k hk
      have := (s.mem_pressed k).1 hk
      simp [h k] at this
    simp [this]

end Sys2Proof.Machine
end

