-- ==== Sys2Proof/Laws/Exec.lean ====
section
/-! SUPPORT. The inversion of `exec`: an instruction either halts, changing nothing but the halt
registers, or completes, leaving them alone (40_cycle_and_control_flow.md R62, 60_exceptions.md R128). -/

namespace Sys2Proof.Machine

/-- The state is the halt's: nothing else happened. -/
def HaltedFrom (s t : State) : Prop := ∃ c v, t = s.takeHalt c v

/-- The halt registers are untouched. -/
def SameHalt (s t : State) : Prop :=
  t.halted = s.halted ∧ t.haltCause = s.haltCause ∧ t.haltValue = s.haltValue

/-- The outcome halts, or completes. -/
def HaltsOrCompletes (s : State) (o : Result) : Prop :=
  ∃ t, o = .next t ∧ (HaltedFrom s t ∨ SameHalt s t)

theorem HaltsOrCompletes.of_halt (s : State) (c : HaltCause) (v : Nat) :
    HaltsOrCompletes s (raiseHalt s c v) := ⟨_, rfl, .inl ⟨c, v, rfl⟩⟩

theorem HaltsOrCompletes.of_next (s t : State) (h : SameHalt s t) : HaltsOrCompletes s (.next t) :=
  ⟨t, rfl, .inr h⟩

theorem HaltsOrCompletes.withAccess (s : State) (a n : Nat) (k : Result)
    (h : HaltsOrCompletes s k) : HaltsOrCompletes s (withAccess s a n k) := by
  rcases withAccess_cases s a n k with ⟨_, e⟩ | ⟨_, _, e⟩ <;> rw [e]
  · exact h
  · exact of_halt s _ _

theorem execRet_halts_or_completes (s : State) : HaltsOrCompletes s (execRet s) := by
  unfold execRet
  rcases s.pop_cases with ⟨_, e⟩ | ⟨_, e⟩ <;> rw [e]
  · exact .of_halt s _ _
  · exact .of_next _ _ ⟨rfl, rfl, rfl⟩

theorem execCall_halts_or_completes (nnn : Addr12) (s : State) : HaltsOrCompletes s (execCall nnn s) := by
  unfold execCall
  rcases s.push_cases (s.pc + 2) with ⟨_, e⟩ | ⟨_, e⟩ <;> rw [e]
  · exact .of_halt s _ _
  · exact .of_next _ _ ⟨rfl, rfl, rfl⟩

theorem withKey_halts_or_completes (s : State) (k : Byte) (go : Bool → Result)
    (h : ∀ b, HaltsOrCompletes s (go b)) : HaltsOrCompletes s (withKey s k go) := by
  unfold withKey
  split
  · exact h _
  · exact .of_halt s _ _

theorem execLdKey_halts_or_completes (x : Reg) (s : State) : HaltsOrCompletes s (execLdKey x s) := by
  unfold execLdKey
  cases s.pickKey <;> exact .of_next _ _ ⟨rfl, rfl, rfl⟩

theorem execSkp_halts_or_completes (x : Reg) (s : State) : HaltsOrCompletes s (execSkp x s) :=
  withKey_halts_or_completes s (s.reg x) _ fun _ => .of_next s _ ⟨rfl, rfl, rfl⟩

theorem execSknp_halts_or_completes (x : Reg) (s : State) : HaltsOrCompletes s (execSknp x s) :=
  withKey_halts_or_completes s (s.reg x) _ fun _ => .of_next s _ ⟨rfl, rfl, rfl⟩

theorem execDrw_halts_or_completes (x y : Reg) (n : Nibble) (s : State) :
    HaltsOrCompletes s (execDrw x y n s) := by
  unfold execDrw
  apply HaltsOrCompletes.withAccess
  exact .of_next _ _ ⟨rfl, rfl, rfl⟩

theorem execLdBcd_halts_or_completes (x : Reg) (s : State) : HaltsOrCompletes s (execLdBcd x s) := by
  unfold execLdBcd
  apply HaltsOrCompletes.withAccess
  exact .of_next _ _ ⟨rfl, rfl, rfl⟩

theorem execDumpRegs_halts_or_completes (x : Reg) (s : State) :
    HaltsOrCompletes s (execDumpRegs x s) := by
  unfold execDumpRegs
  apply HaltsOrCompletes.withAccess
  exact .of_next _ _ ⟨rfl, rfl, rfl⟩

theorem execFillRegs_halts_or_completes (x : Reg) (s : State) :
    HaltsOrCompletes s (execFillRegs x s) := by
  unfold execFillRegs
  apply HaltsOrCompletes.withAccess
  exact .of_next _ _ ⟨by simp, by simp, by simp⟩

/-- The inversion of `exec`. -/
theorem exec_cases (i : Instr) (s : State) : HaltsOrCompletes s (exec i s) := by
  cases i with
  | ret => exact execRet_halts_or_completes s
  | call nnn => exact execCall_halts_or_completes nnn s
  | skp x => exact execSkp_halts_or_completes x s
  | sknp x => exact execSknp_halts_or_completes x s
  | ldKey x => exact execLdKey_halts_or_completes x s
  | ldBcd x => exact execLdBcd_halts_or_completes x s
  | dumpRegs x => exact execDumpRegs_halts_or_completes x s
  | fillRegs x => exact execFillRegs_halts_or_completes x s
  | drw x y n => exact execDrw_halts_or_completes x y n s
  | _ => exact ⟨_, rfl, .inr ⟨rfl, rfl, rfl⟩⟩

end Sys2Proof.Machine
end

