-- ==== Sys2Proof/Laws/Step.lean ====
section
/-! SUPPORT. What a fetch and a step can do, each said once (40_cycle_and_control_flow.md R60). -/

namespace Sys2Proof.Machine

variable (s : State)

/-- The word the next step of a running core fetches, where it can fetch. -/
abbrev State.nextWord : Word := s.mem.readWord s.pc.toNat

/-- A fetch leaves memory, or reads an unknown word, or reads an instruction. -/
theorem fetch_cases :
    (4094 < s.pc.toNat ∧ fetch s = .error (s.takeHalt .addressRange (max s.pc.toNat 4096))) ∨
    (s.pc.toNat ≤ 4094 ∧ decode s.nextWord = .error (.unknownWord s.nextWord) ∧
      fetch s = .error ((s.latch s.nextWord).takeHalt .unknownOpcode s.nextWord.toNat)) ∨
    (s.pc.toNat ≤ 4094 ∧ ∃ i, decode s.nextWord = .ok i ∧ fetch s = .ok (i, s.latch s.nextWord)) := by
  unfold fetch
  split
  · obtain ⟨_, h2, rfl⟩ := (accessFault_eq_some _ _ _).1 ‹_›
    exact .inl ⟨by omega, rfl⟩
  · have h := (accessFault_eq_none _ _).1 ‹_›
    have hle : s.pc.toNat ≤ 4094 := by omega
    cases hd : decode (s.mem.readWord s.pc.toNat) with
    | ok i => exact .inr (.inr ⟨hle, i, rfl, by simp only [hd]⟩)
    | error r => exact .inr (.inl ⟨hle, by rw [decode_error _ _ hd], by simp only [hd]⟩)

/-- A step does nothing (halted), or halts at the fetch, or halts at decode, or runs an instruction. -/
theorem step_cases :
    (s.halted = true ∧ step s = .next s) ∨
    (s.halted = false ∧ 4094 < s.pc.toNat ∧
      step s = .next (s.takeHalt .addressRange (max s.pc.toNat 4096))) ∨
    (s.halted = false ∧ s.pc.toNat ≤ 4094 ∧ decode s.nextWord = .error (.unknownWord s.nextWord) ∧
      step s = .next ((s.latch s.nextWord).takeHalt .unknownOpcode s.nextWord.toNat)) ∨
    (s.halted = false ∧ s.pc.toNat ≤ 4094 ∧ ∃ i, decode s.nextWord = .ok i ∧
      step s = exec i (s.latch s.nextWord)) := by
  unfold step
  cases hh : s.halted with
  | true => exact .inl ⟨rfl, by simp⟩
  | false =>
    rcases fetch_cases s with ⟨h1, h2⟩ | ⟨h1, h2, h3⟩ | ⟨h1, i, h2, h3⟩
    · exact .inr (.inl ⟨rfl, h1, by simp [h2]⟩)
    · exact .inr (.inr (.inl ⟨rfl, h1, h2, by simp [h3]⟩))
    · exact .inr (.inr (.inr ⟨rfl, h1, i, h2, by simp [h3]⟩))

end Sys2Proof.Machine
end

