-- ==== Sys2Proof/Laws/Events.lean ====
section
/-! SUPPORT. What an event and a run can do, each said once (00_scope.md R9, 10_state.md R27). -/

namespace Sys2Proof.Machine

/-- When the host may load. -/
@[simp] theorem loadAllowed_eq_true (loading : Bool) (addr : Nat) :
    loadAllowed loading addr = true ↔ loading = true ∧ addr < Config.memSize := by
  simp [loadAllowed]

/-- Every step answers a next state. -/
theorem step_answers_next (s : State) : ∃ t, step s = .next t := by
  rcases step_cases s with ⟨_, h⟩ | ⟨_, _, h⟩ | ⟨_, _, _, h⟩ | ⟨_, _, i, _, h⟩
  · exact ⟨_, h⟩
  · exact ⟨_, h⟩
  · exact ⟨_, h⟩
  · obtain ⟨t, ht, _⟩ := exec_cases i (s.latch s.nextWord)
    exact ⟨t, h.trans ht⟩

/-- An event that keeps the host's duty answers a next state; one that breaks it is refused by name. -/
theorem event_cases (loading : Bool) (e : Event) (s : State) :
    (dutyKept loading e = true ∧ ∃ t, event loading e s = .next t) ∨
    (dutyKept loading e = false ∧ event loading e s = .refused .hostDuty) := by
  cases e with
  | step => exact .inl ⟨rfl, step_answers_next s⟩
  | hostLoad addr byte =>
    cases h : loadAllowed loading addr <;> simp [dutyKept, event, h]
  | _ => exact .inl ⟨rfl, _, rfl⟩

/-- A sequence with one event more is run by running the sequence and then the event. -/
theorem runEvents_snoc (es : List Event) (e : Event) (loading : Bool) (s t u : State)
    (h : runEvents loading es s = .next t)
    (he : event (es.foldl loadingAfter loading) e t = .next u) :
    runEvents loading (es ++ [e]) s = .next u := by
  induction es generalizing loading s with
  | nil => cases h; simp [runEvents, show event loading e t = .next u from he]
  | cons a es ih =>
    simp only [List.cons_append, runEvents] at h ⊢
    split at h
    · exact ih _ _ h he
    · cases h
    · cases h

/-- `loadingAt` is what the events so far leave. -/
theorem loadingAt_eq_foldl (events : Nat → Event) (n : Nat) :
    loadingAt events n = ((List.range n).map events).foldl loadingAfter true := by
  induction n with
  | zero => rfl
  | succ n ih => simp [loadingAt, ih, List.range_succ]

/-- Every state of an infinite run is reached by a finite one, its first events. -/
theorem InfiniteRun.reachable {events : Nat → Event} {states : Nat → State}
    (h : InfiniteRun events states) (n : Nat) : Reachable (states n) := by
  refine ⟨(List.range n).map events, ?_⟩
  induction n with
  | zero => simp [runEvents, h.1]
  | succ n ih =>
    rw [List.range_succ, List.map_append]
    exact runEvents_snoc _ _ _ _ _ _ ih (loadingAt_eq_foldl events n ▸ h.2 n)

end Sys2Proof.Machine
end

