-- ==== Sys2Proof/Laws/PerInstr.lean ====
section
/-! SUPPORT. The family `RowOfTheMap`: every instruction's word lies in the row of the opcode map that
carries its mnemonic (30_encoding.md R49), whatever its operands. -/

namespace Sys2Proof.Laws

/-- The word of the instruction matches the row of R49 with its mnemonic. -/
def RowOfTheMap.Statement (i : Instr) : Prop :=
  ∃ r ∈ opcodeMap, r.mnemonic = i.mnemonic ∧ encode i &&& r.mask = r.pattern

/-- Masking works nibble by nibble. -/
theorem ofNibbles_and (a b c d a' b' c' d' : Nibble) :
    ofNibbles a b c d &&& ofNibbles a' b' c' d' =
      ofNibbles (a &&& a') (b &&& b') (c &&& c') (d &&& d') := by
  apply BitVec.eq_of_getLsbD_eq; intro i hi
  simp only [ofNibbles, BitVec.getLsbD_and, BitVec.getLsbD_append]; grind

/-- The mask F000 keeps the leading nibble. -/
theorem mask_F000 (a b c d : Nibble) : ofNibbles a b c d &&& 0xF000#16 = ofNibbles a 0 0 0 := by
  rw [show (0xF000#16 : Word) = ofNibbles 0xF#4 0 0 0 by decide, ofNibbles_and]
  simp [show a &&& 15#4 = a from BitVec.and_allOnes]

/-- The mask F00F keeps the outer nibbles. -/
theorem mask_F00F (a b c d : Nibble) : ofNibbles a b c d &&& 0xF00F#16 = ofNibbles a 0 0 d := by
  rw [show (0xF00F#16 : Word) = ofNibbles 0xF#4 0 0 0xF#4 by decide, ofNibbles_and]
  simp [show a &&& 15#4 = a from BitVec.and_allOnes, show d &&& 15#4 = d from BitVec.and_allOnes]

/-- The mask F0FF keeps all but the register nibble. -/
theorem mask_F0FF (a b c d : Nibble) : ofNibbles a b c d &&& 0xF0FF#16 = ofNibbles a 0 c d := by
  rw [show (0xF0FF#16 : Word) = ofNibbles 0xF#4 0 0xF#4 0xF#4 by decide, ofNibbles_and]
  simp [show a &&& 15#4 = a from BitVec.and_allOnes, show c &&& 15#4 = c from BitVec.and_allOnes,
    show d &&& 15#4 = d from BitVec.and_allOnes]

namespace RowOfTheMap

theorem cls : Statement .cls := ⟨⟨"CLS", 0xFFFF, 0x00E0⟩, by decide, rfl, by decide⟩
theorem ret : Statement .ret := ⟨⟨"RET", 0xFFFF, 0x00EE⟩, by decide, rfl, by decide⟩
theorem jp (nnn : Addr12) : Statement (.jp nnn) :=
  ⟨⟨"JP_nnn", 0xF000, 0x1000⟩, by decide, rfl, mask_F000 _ _ _ _⟩
theorem call (nnn : Addr12) : Statement (.call nnn) :=
  ⟨⟨"CALL_nnn", 0xF000, 0x2000⟩, by decide, rfl, mask_F000 _ _ _ _⟩
theorem seImm (x : Reg) (nn : Byte) : Statement (.seImm x nn) :=
  ⟨⟨"SE_Vx__nn", 0xF000, 0x3000⟩, by decide, rfl, mask_F000 _ _ _ _⟩
theorem sneImm (x : Reg) (nn : Byte) : Statement (.sneImm x nn) :=
  ⟨⟨"SNE_Vx__nn", 0xF000, 0x4000⟩, by decide, rfl, mask_F000 _ _ _ _⟩
theorem seReg (x y : Reg) : Statement (.seReg x y) :=
  ⟨⟨"SE_Vx__Vy", 0xF00F, 0x5000⟩, by decide, rfl, mask_F00F _ _ _ _⟩
theorem sneReg (x y : Reg) : Statement (.sneReg x y) :=
  ⟨⟨"SNE_Vx__Vy", 0xF00F, 0x9000⟩, by decide, rfl, mask_F00F _ _ _ _⟩
theorem ldImm (x : Reg) (nn : Byte) : Statement (.ldImm x nn) :=
  ⟨⟨"LD_Vx__nn", 0xF000, 0x6000⟩, by decide, rfl, mask_F000 _ _ _ _⟩
theorem addImm (x : Reg) (nn : Byte) : Statement (.addImm x nn) :=
  ⟨⟨"ADD_Vx__nn", 0xF000, 0x7000⟩, by decide, rfl, mask_F000 _ _ _ _⟩
theorem ldReg (x y : Reg) : Statement (.ldReg x y) :=
  ⟨⟨"LD_Vx__Vy", 0xF00F, 0x8000⟩, by decide, rfl, mask_F00F _ _ _ _⟩
theorem orReg (x y : Reg) : Statement (.orReg x y) :=
  ⟨⟨"OR_Vx__Vy", 0xF00F, 0x8001⟩, by decide, rfl, mask_F00F _ _ _ _⟩
theorem andReg (x y : Reg) : Statement (.andReg x y) :=
  ⟨⟨"AND_Vx__Vy", 0xF00F, 0x8002⟩, by decide, rfl, mask_F00F _ _ _ _⟩
theorem xorReg (x y : Reg) : Statement (.xorReg x y) :=
  ⟨⟨"XOR_Vx__Vy", 0xF00F, 0x8003⟩, by decide, rfl, mask_F00F _ _ _ _⟩
theorem addReg (x y : Reg) : Statement (.addReg x y) :=
  ⟨⟨"ADD_Vx__Vy", 0xF00F, 0x8004⟩, by decide, rfl, mask_F00F _ _ _ _⟩
theorem subReg (x y : Reg) : Statement (.subReg x y) :=
  ⟨⟨"SUB_Vx__Vy", 0xF00F, 0x8005⟩, by decide, rfl, mask_F00F _ _ _ _⟩
theorem shr (x y : Reg) : Statement (.shr x y) :=
  ⟨⟨"SHR_Vx", 0xF00F, 0x8006⟩, by decide, rfl, mask_F00F _ _ _ _⟩
theorem subnReg (x y : Reg) : Statement (.subnReg x y) :=
  ⟨⟨"SUBN_Vx__Vy", 0xF00F, 0x8007⟩, by decide, rfl, mask_F00F _ _ _ _⟩
theorem shl (x y : Reg) : Statement (.shl x y) :=
  ⟨⟨"SHL_Vx", 0xF00F, 0x800E⟩, by decide, rfl, mask_F00F _ _ _ _⟩
theorem ldIndex (nnn : Addr12) : Statement (.ldIndex nnn) :=
  ⟨⟨"LD_I__nnn", 0xF000, 0xA000⟩, by decide, rfl, mask_F000 _ _ _ _⟩
theorem rnd (x : Reg) (nn : Byte) : Statement (.rnd x nn) :=
  ⟨⟨"RND_Vx__nn", 0xF000, 0xC000⟩, by decide, rfl, mask_F000 _ _ _ _⟩
theorem skp (x : Reg) : Statement (.skp x) :=
  ⟨⟨"SKP_Vx", 0xF0FF, 0xE09E⟩, by decide, rfl, mask_F0FF _ _ _ _⟩
theorem sknp (x : Reg) : Statement (.sknp x) :=
  ⟨⟨"SKNP_Vx", 0xF0FF, 0xE0A1⟩, by decide, rfl, mask_F0FF _ _ _ _⟩
theorem ldKey (x : Reg) : Statement (.ldKey x) :=
  ⟨⟨"LD_Vx__K", 0xF0FF, 0xF00A⟩, by decide, rfl, mask_F0FF _ _ _ _⟩
theorem ldFromDelay (x : Reg) : Statement (.ldFromDelay x) :=
  ⟨⟨"LD_Vx__DT", 0xF0FF, 0xF007⟩, by decide, rfl, mask_F0FF _ _ _ _⟩
theorem ldToDelay (x : Reg) : Statement (.ldToDelay x) :=
  ⟨⟨"LD_DT__Vx", 0xF0FF, 0xF015⟩, by decide, rfl, mask_F0FF _ _ _ _⟩
theorem ldToSound (x : Reg) : Statement (.ldToSound x) :=
  ⟨⟨"LD_ST__Vx", 0xF0FF, 0xF018⟩, by decide, rfl, mask_F0FF _ _ _ _⟩
theorem addIndex (x : Reg) : Statement (.addIndex x) :=
  ⟨⟨"ADD_I__Vx", 0xF0FF, 0xF01E⟩, by decide, rfl, mask_F0FF _ _ _ _⟩
theorem ldFont (x : Reg) : Statement (.ldFont x) :=
  ⟨⟨"LD_F__Vx", 0xF0FF, 0xF029⟩, by decide, rfl, mask_F0FF _ _ _ _⟩
theorem ldBcd (x : Reg) : Statement (.ldBcd x) :=
  ⟨⟨"LD_B__Vx", 0xF0FF, 0xF033⟩, by decide, rfl, mask_F0FF _ _ _ _⟩
theorem dumpRegs (x : Reg) : Statement (.dumpRegs x) :=
  ⟨⟨"LD__I___Vx", 0xF0FF, 0xF055⟩, by decide, rfl, mask_F0FF _ _ _ _⟩
theorem fillRegs (x : Reg) : Statement (.fillRegs x) :=
  ⟨⟨"LD_Vx___I", 0xF0FF, 0xF065⟩, by decide, rfl, mask_F0FF _ _ _ _⟩
theorem drw (x y : Reg) (n : Nibble) : Statement (.drw x y n) :=
  ⟨⟨"DRW_Vx__Vy__n", 0xF000, 0xD000⟩, by decide, rfl, mask_F000 _ _ _ _⟩

end RowOfTheMap

end Sys2Proof.Laws
end

