-- ==== Sys2Proof/Laws/Screen.lean ====
section
/-! SUPPORT. What one pixel does to the display. -/

namespace Sys2Proof.Machine

/-- A flip inverts its cell and leaves every other cell alone. -/
theorem Display.cell_flip (d : Display) (col c : Fin 64) (row r : Fin 32) :
    (d.flip col row).cell c r = (d.cell c r ^^ decide (c = col ∧ r = row)) := by
  unfold Display.cell Display.flip
  rw [Vector.getElem_set]
  by_cases h : row = r
  · subst h
    simp [Fin.ext_iff, eq_comm]
  · have : row.val ≠ r.val := fun e => h (Fin.ext e)
    simp [this, Ne.symm h]

@[simp] theorem Display.cell_clear (c : Fin 64) (r : Fin 32) : Display.clear.cell c r = false := by
  simp [Display.cell, Display.clear]

/-- Two displays with the same cells are equal data. -/
theorem Display.ext_cells (d e : Display) (h : ∀ c r, d.cell c r = e.cell c r) : d = e := by
  apply Vector.ext
  intro i hi
  apply BitVec.eq_of_getLsbD_eq
  intro j hj
  exact h ⟨j, hj⟩ ⟨i, hi⟩

/-- One pixel: the display after it, cell by cell. -/
theorem drawPixel_cell (ox oy r : Nat) (b : Byte) (acc : Display × Bool) (c : Nat)
    (col : Fin 64) (row : Fin 32) :
    (drawPixel ox oy r b acc c).1.cell col row =
      (acc.1.cell col row ^^
        (b.getLsbD (7 - c) && decide (col = targetCol ox c ∧ row = targetRow oy r))) := by
  unfold drawPixel
  split
  · rename_i h; rw [Display.cell_flip, h, Bool.true_and]
  · rename_i h; simp [h]

/-- One pixel: the collision after it. -/
theorem drawPixel_collision (ox oy r : Nat) (b : Byte) (acc : Display × Bool) (c : Nat) :
    (drawPixel ox oy r b acc c).2 =
      (acc.2 || (b.getLsbD (7 - c) && acc.1.cell (targetCol ox c) (targetRow oy r))) := by
  unfold drawPixel
  split
  · rename_i h; rw [h, Bool.true_and]
  · rename_i h; simp [h]

end Sys2Proof.Machine
end

