-- ==== Sys2Proof/Tests/Slice0.lean ====
section
/-! SUPPORT. The model's own tests. Words are written out from the patterns of 30_encoding.md R49; expected
results are those of spec/95_test_vectors.md (the vector's id is named) or hand calculation from the rule
named. The `witness_` theorems show that the hypotheses of the statement of that name, clause by clause, are
met by concrete states. -/

namespace Sys2Proof.Tests

open Sys2Proof Sys2Proof.Machine

/-! ### Helpers -/

/-- The reset state with some registers given a value. -/
def withRegs (vs : List (Reg × Byte)) : State :=
  vs.foldl (fun s p => s.setReg p.1 p.2) State.reset

/-- The state with bytes stored from an address on. -/
def poke (s : State) (a : Nat) (bs : List Byte) : State := s.setMem (s.mem.writeBytes a bs)

/-- The state with a key pressed. -/
def press (s : State) (k : Key) : State := s.setKey k true

/-- The state with one display cell inverted. -/
def light (s : State) (col : Fin 64) (row : Fin 32) : State := { s with disp := s.disp.flip col row }

/-- One step of the state with the word at pc, seen through `f`. -/
def run {α : Type} (s : State) (w : Nat) (f : State → α) : Option α :=
  match step (s.withFetchWord 16 w) with
  | .next t => some (f t)
  | _ => none

/-- The next state of an answer. -/
def nextOf : Result → Option State
  | .next t => some t
  | _ => none

theorem eq_next_of_nextOf {o : Result} {t : State} (h : nextOf o = some t) : o = .next t := by
  cases o <;> simp_all [nextOf]

/-- The halt cause in the next state of an instruction. -/
def causeAfter (i : Instr) (s : State) : Option (BitVec 3) := (nextOf (exec i s)).map (·.haltCause)

/-- What a halt shows: the flag, the cause, the value, pc. -/
def haltView (s : State) : Bool × Nat × Nat × Nat :=
  (s.halted, s.haltCause.toNat, s.haltValue.toNat, s.pc.toNat)

/-! ### Ill-formed words: one of each row of R51's table is refused, and runs into a halt -/

theorem test_ill_formed_zero_family : wellFormedWord 0x0123 = false ∧
    decode 0x0123 = .error (.unknownWord 0x0123) := by decide
theorem test_ill_formed_skip_equal : wellFormedWord 0x5121 = false ∧
    decode 0x5121 = .error (.unknownWord 0x5121) := by decide
theorem test_ill_formed_alu : wellFormedWord 0x8128 = false ∧
    decode 0x8128 = .error (.unknownWord 0x8128) := by decide
theorem test_ill_formed_skip_not_equal : wellFormedWord 0x912F = false ∧
    decode 0x912F = .error (.unknownWord 0x912F) := by decide
theorem test_ill_formed_jump_with_offset : wellFormedWord 0xB300 = false ∧
    decode 0xB300 = .error (.unknownWord 0xB300) := by decide
theorem test_ill_formed_key_family : wellFormedWord 0xE1A0 = false ∧
    decode 0xE1A0 = .error (.unknownWord 0xE1A0) := by decide
theorem test_ill_formed_misc_family : wellFormedWord 0xF175 = false ∧
    decode 0xF175 = .error (.unknownWord 0xF175) := by decide
theorem test_truncated_bytes : decodeBytes [0x12] = .error (.truncated [0x12]) := by decide
/-- V-C3 to V-C10. -/
theorem test_unknown_words_halt : ∀ w ∈ [0xB300, 0x0123, 0x5121, 0x9121, 0x812F, 0xE000, 0xF1FF, 0x00FF],
    run State.reset w haltView = some (true, 1, w, 0x200) := by decide

/-! ### Every constructor's decoding, from a word written out of R49's pattern; one of each format is
written bit by bit, nibble after nibble -/

theorem test_decode_cls : decode 0b0000000011100000 = .ok .cls := by decide
theorem test_decode_ret : decode 0x00EE = .ok .ret := by decide
theorem test_decode_jp : decode 0b0001101010111100 = .ok (.jp 0xABC) := by decide
theorem test_decode_call : decode 0x2DEF = .ok (.call 0xDEF) := by decide
theorem test_decode_seImm : decode 0b0011101001011111 = .ok (.seImm 0xA 0x5F) := by decide
theorem test_decode_sneImm : decode 0x4B07 = .ok (.sneImm 0xB 0x07) := by decide
theorem test_decode_seReg : decode 0x5C10 = .ok (.seReg 0xC 0x1) := by decide
theorem test_decode_sneReg : decode 0x9E20 = .ok (.sneReg 0xE 0x2) := by decide
theorem test_decode_ldImm : decode 0x6FA5 = .ok (.ldImm 0xF 0xA5) := by decide
theorem test_decode_addImm : decode 0x7180 = .ok (.addImm 0x1 0x80) := by decide
theorem test_decode_ldReg : decode 0x8120 = .ok (.ldReg 0x1 0x2) := by decide
theorem test_decode_orReg : decode 0x8341 = .ok (.orReg 0x3 0x4) := by decide
theorem test_decode_andReg : decode 0x8562 = .ok (.andReg 0x5 0x6) := by decide
theorem test_decode_xorReg : decode 0x8783 = .ok (.xorReg 0x7 0x8) := by decide
theorem test_decode_addReg : decode 0b1000101010110100 = .ok (.addReg 0xA 0xB) := by decide
theorem test_decode_subReg : decode 0x89A5 = .ok (.subReg 0x9 0xA) := by decide
theorem test_decode_shr : decode 0x81F6 = .ok (.shr 0x1 0xF) := by decide
theorem test_decode_subnReg : decode 0x8BC7 = .ok (.subnReg 0xB 0xC) := by decide
theorem test_decode_shl : decode 0x8DEE = .ok (.shl 0xD 0xE) := by decide
theorem test_decode_ldIndex : decode 0xA2F0 = .ok (.ldIndex 0x2F0) := by decide
theorem test_decode_rnd : decode 0xC30F = .ok (.rnd 0x3 0x0F) := by decide
theorem test_decode_skp : decode 0b1110010110011110 = .ok (.skp 0x5) := by decide
theorem test_decode_sknp : decode 0xE6A1 = .ok (.sknp 0x6) := by decide
theorem test_decode_ldKey : decode 0xF30A = .ok (.ldKey 0x3) := by decide
theorem test_decode_ldFromDelay : decode 0xF407 = .ok (.ldFromDelay 0x4) := by decide
theorem test_decode_ldToDelay : decode 0xF515 = .ok (.ldToDelay 0x5) := by decide
theorem test_decode_ldToSound : decode 0xF618 = .ok (.ldToSound 0x6) := by decide
theorem test_decode_addIndex : decode 0xF71E = .ok (.addIndex 0x7) := by decide
theorem test_decode_ldFont : decode 0xF829 = .ok (.ldFont 0x8) := by decide
theorem test_decode_ldBcd : decode 0xF933 = .ok (.ldBcd 0x9) := by decide
theorem test_decode_dumpRegs : decode 0b1111011101010101 = .ok (.dumpRegs 0x7) := by decide
theorem test_decode_fillRegs : decode 0xFB65 = .ok (.fillRegs 0xB) := by decide
theorem test_decode_drw : decode 0b1101000100101111 = .ok (.drw 0x1 0x2 0xF) := by decide

/-! ### Fetch and step -/

/-- V-C1: big-endian fetch. -/
theorem test_step_fetches_big_endian : run State.reset 0x1234 (fun t => (t.opcode, t.pc)) =
    some (0x1234, 0x0234) := by decide
/-- V-C14, V-C15: a fetch at 0x1000 and at 0xFFF. -/
theorem test_step_fetch_beyond_memory :
    haltView ((State.reset.jump 0x1000).takeHalt .addressRange 0x1000) = (true, 4, 0x1000, 0x1000) ∧
    nextOf (step (State.reset.jump 0x1000)) = some ((State.reset.jump 0x1000).takeHalt .addressRange 0x1000) ∧
    nextOf (step (State.reset.jump 0x0FFF)) = some ((State.reset.jump 0x0FFF).takeHalt .addressRange 0x1000) := by
  decide
/-- V-C13, V-C16: the last two bytes, and an odd pc, are fetched. -/
theorem test_step_fetch_last_word_and_odd_pc :
    run (State.reset.jump 0x0FFE) 0x6011 (fun t => (t.reg 0, t.pc, t.halted)) = some (0x11, 0x1000, false) ∧
    run (State.reset.jump 0x0201) 0x6A2F (fun t => (t.reg 0xA, t.pc)) = some (0x2F, 0x0203) := by decide
/-- V-C2, V-C11: with nothing loaded the first step halts, further steps change nothing. -/
theorem test_step_halted_does_nothing :
    run State.reset 0x0000 haltView = some (true, 1, 0, 0x200) ∧
    nextOf (step (State.reset.takeHalt .unknownOpcode 0)) = some (State.reset.takeHalt .unknownOpcode 0) := by
  decide

/-! ### Control flow -/

/-- V-F2, V-F6. -/
theorem test_call : run State.reset 0x2300 (fun t => (t.stack[0], t.sp, t.pc)) = some (0x0202, 1, 0x300) ∧
    run { State.reset with sp := 15, pc := 0x021E } 0x2220 (fun t => (t.stack[15], t.sp, t.pc)) =
      some (0x0220, 16, 0x0220) := by decide
/-- V-F5. -/
theorem test_call_overflow : run { State.reset with sp := 16, pc := 0x0220 } 0x2222
    (fun t => (haltView t, t.sp, t.stack == State.reset.stack)) =
    some ((true, 2, 0x2222, 0x0220), 16, true) := by decide
/-- V-F3. -/
theorem test_ret : run { State.reset with sp := 1, stack := State.reset.stack.set 0 0x0202, pc := 0x0300 }
    0x00EE (fun t => (t.sp, t.pc, t.stack[0])) = some (0, 0x0202, 0x0202) := by decide
/-- V-F4. -/
theorem test_ret_underflow : run State.reset 0x00EE haltView = some (true, 3, 0x00EE, 0x0200) := by decide
/-- V-F1, V-C10. -/
theorem test_jp : run State.reset 0x1200 (·.pc) = some 0x0200 ∧
    run State.reset 0x10E0 (·.pc) = some 0x00E0 := by decide
/-- S10. -/
theorem test_seImm : run (withRegs [(1, 5)]) 0x3105 (·.pc) = some 0x0204 ∧
    run (withRegs [(1, 5)]) 0x3106 (·.pc) = some 0x0202 := by decide
/-- V-F7, V-F8. -/
theorem test_sneImm : run (withRegs [(3, 0x10)]) 0x4311 (·.pc) = some 0x0204 ∧
    run (withRegs [(3, 0x10)]) 0x4310 (·.pc) = some 0x0202 := by decide
/-- V-F9 to V-F11. -/
theorem test_seReg : run (withRegs [(1, 7), (2, 7)]) 0x5120 (·.pc) = some 0x0204 ∧
    run (withRegs [(1, 7), (2, 8)]) 0x5120 (·.pc) = some 0x0202 ∧
    run (withRegs [(1, 7)]) 0x5110 (·.pc) = some 0x0204 := by decide
/-- V-F12 to V-F14. -/
theorem test_sneReg : run (withRegs [(1, 7), (2, 8)]) 0x9120 (·.pc) = some 0x0204 ∧
    run (withRegs [(1, 7), (2, 7)]) 0x9120 (·.pc) = some 0x0202 ∧
    run (withRegs [(1, 7)]) 0x9110 (·.pc) = some 0x0202 := by decide

/-! ### Register file and ALU -/

/-- V-A1, V-A2. -/
theorem test_ldImm : run State.reset 0x6A2F (fun t => (t.reg 0xA, t.pc)) = some (0x2F, 0x0202) ∧
    run State.reset 0x6F55 (·.reg 0xF) = some 0x55 := by decide
/-- S1, V-A5. -/
theorem test_addImm : run (withRegs [(1, 0xFE), (0xF, 1)]) 0x7105 (fun t => (t.reg 1, t.reg 0xF)) =
    some (0x03, 0x01) ∧ run (withRegs [(0xF, 0xFF)]) 0x7F01 (·.reg 0xF) = some 0x00 := by decide
/-- V-A6. -/
theorem test_ldReg : run (withRegs [(2, 0x5A)]) 0x8120 (fun t => (t.reg 1, t.reg 2)) =
    some (0x5A, 0x5A) := by decide
/-- V-A7. -/
theorem test_orReg : run (withRegs [(1, 0xF0), (2, 0x3C), (0xF, 1)]) 0x8121
    (fun t => (t.reg 1, t.reg 0xF)) = some (0xFC, 1) := by decide
/-- V-A8. -/
theorem test_andReg : run (withRegs [(1, 0xF0), (2, 0x3C), (0xF, 1)]) 0x8122
    (fun t => (t.reg 1, t.reg 0xF)) = some (0x30, 1) := by decide
/-- V-A9. -/
theorem test_xorReg : run (withRegs [(1, 0xF0), (2, 0x3C), (0xF, 1)]) 0x8123
    (fun t => (t.reg 1, t.reg 0xF)) = some (0xCC, 1) := by decide
/-- S2, V-A11, V-A12. -/
theorem test_addReg : run (withRegs [(1, 200), (2, 100)]) 0x8124 (fun t => (t.reg 1, t.reg 2, t.reg 0xF)) =
    some (44, 100, 1) ∧
    run (withRegs [(1, 0xFF)]) 0x8124 (fun t => (t.reg 1, t.reg 0xF)) = some (0xFF, 0) ∧
    run (withRegs [(1, 0xFF), (2, 1)]) 0x8124 (fun t => (t.reg 1, t.reg 0xF)) = some (0, 1) := by decide
/-- V-A15 to V-A17. -/
theorem test_addReg_flag_operand :
    run (withRegs [(0xF, 1), (1, 0xFF)]) 0x8F14 (·.reg 0xF) = some 1 ∧
    run (withRegs [(0xF, 1), (1, 2)]) 0x8F14 (·.reg 0xF) = some 0 ∧
    run (withRegs [(1, 0xFF), (0xF, 1)]) 0x81F4 (fun t => (t.reg 1, t.reg 0xF)) = some (0, 1) := by decide
/-- S4, S5, V-A18. -/
theorem test_subReg : run (withRegs [(1, 5), (2, 10)]) 0x8125 (fun t => (t.reg 1, t.reg 0xF)) =
    some (251, 0) ∧
    run (withRegs [(1, 10), (2, 5)]) 0x8125 (fun t => (t.reg 1, t.reg 0xF)) = some (5, 1) ∧
    run (withRegs [(1, 7), (2, 7)]) 0x8125 (fun t => (t.reg 1, t.reg 0xF)) = some (0, 1) := by decide
/-- V-A21, V-A22. -/
theorem test_subReg_flag_operand : run (withRegs [(0xF, 3), (2, 5)]) 0x8F25 (·.reg 0xF) = some 0 ∧
    run (withRegs [(0xF, 5), (2, 3)]) 0x8F25 (·.reg 0xF) = some 1 := by decide
/-- V-A28, V-A30, V-A32. -/
theorem test_shr : run (withRegs [(1, 5), (2, 0xAA)]) 0x8126 (fun t => (t.reg 1, t.reg 2, t.reg 0xF)) =
    some (2, 0xAA, 1) ∧
    run (withRegs [(1, 0xFF)]) 0x8126 (fun t => (t.reg 1, t.reg 0xF)) = some (0x7F, 1) ∧
    run (withRegs [(0xF, 3)]) 0x8F06 (·.reg 0xF) = some 1 := by decide
/-- V-A23 to V-A25. -/
theorem test_subnReg : run (withRegs [(1, 5), (2, 10)]) 0x8127 (fun t => (t.reg 1, t.reg 0xF)) =
    some (5, 1) ∧
    run (withRegs [(1, 10), (2, 5)]) 0x8127 (fun t => (t.reg 1, t.reg 0xF)) = some (251, 0) ∧
    run (withRegs [(1, 7), (2, 7)]) 0x8127 (fun t => (t.reg 1, t.reg 0xF)) = some (0, 0) := by decide
/-- V-A33, V-A34, V-A37. -/
theorem test_shl : run (withRegs [(1, 0x81), (2, 0xAA)]) 0x812E
    (fun t => (t.reg 1, t.reg 2, t.reg 0xF)) = some (2, 0xAA, 1) ∧
    run (withRegs [(1, 0x40)]) 0x812E (fun t => (t.reg 1, t.reg 0xF)) = some (0x80, 0) ∧
    run (withRegs [(0xF, 1)]) 0x8F0E (·.reg 0xF) = some 0 := by decide
/-- V-A39: mask 0, whatever the random byte. -/
theorem test_rnd_mask_zero : exec (.rnd 3 0x00) State.reset =
    .next ((State.reset.drawn.setReg 3 0).advance 2) := by
  simp [exec, execRnd, writeReg]
/-- V-A40: mask 0xFF, the random byte itself. -/
theorem test_rnd_mask_ones : exec (.rnd 3 0xFF) State.reset =
    .next ((State.reset.drawn.setReg 3 (Config.rnd 0)).advance 2) := by
  have h : ∀ b : Byte, b &&& 0xFF#8 = b := fun b => by
    rw [show 0xFF#8 = BitVec.allOnes 8 by decide, BitVec.and_allOnes]
  simp [exec, execRnd, writeReg, State.randomByte, State.reset, h]

/-! ### Index register and memory -/

/-- V-M1. -/
theorem test_ldIndex : run (State.reset.setIndex 0x1234) 0xAFFF (fun t => (t.I, t.pc)) =
    some (0x0FFF, 0x0202) := by decide
/-- V-M3 to V-M5. -/
theorem test_addIndex :
    run ((withRegs [(2, 3)]).setIndex 0x0FFE) 0xF21E (fun t => (t.I, t.reg 0xF)) = some (0x1001, 1) ∧
    run (State.reset.setIndex 0x0FFF) 0xF21E (fun t => (t.I, t.reg 0xF)) = some (0x0FFF, 0) ∧
    run ((withRegs [(2, 1)]).setIndex 0xFFFF) 0xF21E (fun t => (t.I, t.reg 0xF)) = some (0, 1) := by decide
/-- V-M6: x = F. -/
theorem test_addIndex_flag_operand : run ((withRegs [(0xF, 1)]).setIndex 0x0FFF) 0xFF1E
    (fun t => (t.I, t.reg 0xF)) = some (0x1000, 1) := by decide
/-- V-M6b. -/
theorem test_ldFont : run (withRegs [(4, 0x0F)]) 0xF429 (·.I) = some 0x004B ∧
    run (withRegs [(4, 0xFF)]) 0xF429 (·.I) = some 0x04FB := by decide
/-- S6, V-M6c. -/
theorem test_ldBcd : run ((withRegs [(5, 157)]).setIndex 0x300) 0xF533
    (fun t => (t.mem.read 0x300, t.mem.read 0x301, t.mem.read 0x302, t.I)) = some (1, 5, 7, 0x300) ∧
    run (poke ((withRegs [(5, 9)]).setIndex 0x300) 0x300 [7, 7, 7]) 0xF533
    (fun t => (t.mem.read 0x300, t.mem.read 0x301, t.mem.read 0x302)) = some (0, 0, 9) := by decide
/-- V-M16, V-M17. -/
theorem test_ldBcd_beyond_memory :
    run ((withRegs [(5, 123)]).setIndex 0x0FFE) 0xF533 (fun t => (haltView t, t.mem.read 0x0FFE)) =
      some ((true, 4, 0x1000, 0x0200), 0) ∧
    run ((withRegs [(5, 123)]).setIndex 0xFFFF) 0xF533 haltView = some (true, 4, 0xFFFF, 0x0200) := by decide
/-- V-M7. -/
theorem test_dumpRegs : run ((withRegs [(0, 1), (1, 2), (2, 3), (3, 4)]).setIndex 0x300) 0xF255
    (fun t => ((List.range 4).map fun k => t.mem.read (0x300 + k), t.I)) =
    some ([1, 2, 3, 0], 0x300) := by decide
/-- V-M11, V-M12. -/
theorem test_dumpRegs_at_the_top :
    run ((withRegs [(0, 1)]).setIndex 0x0FFF) 0xF055 (fun t => (t.mem.read 0xFFF, t.halted)) =
      some (1, false) ∧
    run ((withRegs [(0, 1)]).setIndex 0x0FFF) 0xF155 (fun t => (haltView t, t.mem.read 0xFFF)) =
      some ((true, 4, 0x1000, 0x0200), 0) := by decide
/-- V-M8. -/
theorem test_fillRegs : run (poke ((withRegs [(3, 0x44)]).setIndex 0x300) 0x300 [9, 8, 7, 6]) 0xF265
    (fun t => (t.reg 0, t.reg 1, t.reg 2, t.reg 3, t.I)) = some (9, 8, 7, 0x44, 0x300) := by decide
/-- V-M13, V-M14. -/
theorem test_fillRegs_beyond_memory :
    run ((withRegs [(0, 1)]).setIndex 0x1000) 0xF065 (fun t => (haltView t, t.reg 0)) =
      some ((true, 4, 0x1000, 0x0200), 1) ∧
    run ((withRegs [(0, 1), (1, 2)]).setIndex 0x0FFF) 0xF165 (fun t => (haltView t, t.reg 0, t.reg 1)) =
      some ((true, 4, 0x1000, 0x0200), 1, 2) := by decide

/-! ### Display -/

/-- V-D1, V-D2. -/
theorem test_cls : run (light (light State.reset 3 4) 63 31) 0x00E0
    (fun t => (t.disp == Display.clear, t.redraw, t.pc)) = some (true, true, 0x0202) ∧
    run State.reset 0x00E0 (fun t => (t.disp == Display.clear, t.redraw)) = some (true, true) := by decide
/-- V-D3: each axis wraps on its own. -/
theorem test_drw_wraps : run (poke ((withRegs [(1, 255), (2, 255)]).setIndex 0x300) 0x300 [0xC0, 0x80]) 0xD122
    (fun t => (t.disp == ((Display.clear.flip 63 31).flip 0 31).flip 63 0, t.reg 0xF, t.redraw)) =
    some (true, 0, true) := by decide
/-- V-D8, V-D10: a collision of one pixel of two; a sprite beyond memory draws nothing. -/
theorem test_drw_collision_and_halt :
    run (light (light (poke (State.reset.setIndex 0x300) 0x300 [0xA0]) 1 0) 2 0) 0xD001
      (fun t => (t.disp == (Display.clear.flip 0 0).flip 1 0, t.reg 0xF)) = some (true, 1) ∧
    run (light ((withRegs [(0xF, 1)]).setIndex 0x0FFE) 0 0) 0xD003
      (fun t => (haltView t, t.reg 0xF, t.disp == Display.clear.flip 0 0, t.redraw)) =
      some ((true, 4, 0x1000, 0x0200), 1, true, false) := by decide

/-! ### Keys and timers -/

/-- V-K1, V-K2, V-K4b. -/
theorem test_skp : run (press (withRegs [(5, 0x0A)]) 10) 0xE59E (·.pc) = some 0x0204 ∧
    run (withRegs [(5, 0x0A)]) 0xE59E (·.pc) = some 0x0202 ∧
    run (withRegs [(5, 0x10)]) 0xE59E haltView = some (true, 5, 0xE59E, 0x0200) := by decide
/-- V-K3, V-K4, V-K4b. -/
theorem test_sknp : run (press (withRegs [(5, 0x0F)]) 15) 0xE5A1 (·.pc) = some 0x0202 ∧
    run (withRegs [(5, 0x0F)]) 0xE5A1 (·.pc) = some 0x0204 ∧
    run (withRegs [(5, 0x10)]) 0xE5A1 haltView = some (true, 5, 0xE5A1, 0x0200) := by decide
/-- V-K5. -/
theorem test_ldKey_waits : run (withRegs [(3, 0x55)]) 0xF30A (fun t => (t.pc, t.reg 3, t.opcode, t.halted)) =
    some (0x0200, 0x55, 0xF30A, false) := by decide
/-- V-K6: one key pressed, so the free choice is that key. -/
theorem test_ldKey_one_key : exec (.ldKey 3) (press State.reset 7) =
    .next (((press State.reset 7).drawn.setReg 3 7).advance 2) := by
  have h : (press State.reset 7).pressed = [7] := by decide
  simp [exec, execLdKey, State.pickKey, h, Nat.mod_one]
/-- V-K8. -/
theorem test_ldFromDelay : run (State.reset.setDelay 0x3C) 0xF207 (fun t => (t.reg 2, t.delay, t.pc)) =
    some (0x3C, 0x3C, 0x0202) := by decide
/-- V-K9. -/
theorem test_ldToDelay : run (withRegs [(2, 0x3C)]) 0xF215 (fun t => (t.delay, t.sound, t.pc)) =
    some (0x3C, 0, 0x0202) := by decide
/-- V-K10. -/
theorem test_ldToSound : run (withRegs [(2, 0x05)]) 0xF218 (fun t => (t.sound, t.delay, t.pc)) =
    some (5, 0, 0x0202) := by decide
/-- One tick of the two timer values: delay, sound and beep. -/
def tickView (delay sound : Byte) : Byte × Byte × Bool :=
  let s := (State.reset.setDelay delay).setSound sound
  (s.tick.delay, s.tick.sound, s.beep)
/-- V-T1, V-T3 to V-T6. -/
theorem test_tick : tickView 3 0 = (2, 0, false) ∧ tickView 0 1 = (0, 0, false) ∧
    tickView 0 2 = (0, 1, true) ∧ tickView 255 255 = (254, 254, false) ∧
    tickView 0 0 = (0, 0, false) := by decide

/-! ### Reset and host events -/

/-- V-R1; the model's own counter goes on (log 3). -/
theorem test_reset :
    nextOf (event false .reset (poke ((((press (withRegs [(1, 9)]) 3).paint Display.clear).drawn).takeHalt
      .unknownOpcode 0) 0x300 [7])) = some State.reset.drawn := by decide
/-- Loading after the first step is refused; loading before it is not (R27). -/
theorem test_host_load :
    nextOf (runEvents true [.hostLoad 0x300 7] State.reset) = some (poke State.reset 0x300 [7]) ∧
    nextOf (runEvents true [.tick, .step, .hostLoad 0x300 7] State.reset) = none := by decide

/-! ### Witnesses: the hypotheses of each statement, met -/

theorem witness_StepRunsTheDecodedInstruction :
    let s := (State.reset.jump 0x0FFE).withFetchWord 16 0x6011
    s.halted = false ∧ s.pc.toNat + 1 ≤ 4095 ∧
    (0x6011#16).toNat = 0x100 * (s.mem.read s.pc.toNat).toNat + (s.mem.read (s.pc.toNat + 1)).toNat ∧
    decode 0x6011#16 = .ok (.ldImm 0 0x11) := by decide

/-- A halted core; pc at 4095; pc at 4094 with a word of no row, and with a word of a row. -/
theorem witness_StepFollowsTheCycle :
    (State.reset.takeHalt .unknownOpcode 0).halted = true ∧
    (State.reset.jump 0x0FFF).halted = false ∧ (State.reset.jump 0x0FFF).pc.toNat + 1 > 4095 ∧
    (let s := (State.reset.jump 0x0FFE).withFetchWord 16 0x8128
     s.halted = false ∧ s.pc.toNat + 1 ≤ 4095 ∧
     (0x8128#16).toNat = 0x100 * (s.mem.read s.pc.toNat).toNat + (s.mem.read (s.pc.toNat + 1)).toNat ∧
     ∀ r ∈ opcodeMap, 0x8128#16 &&& r.mask ≠ r.pattern) ∧
    (let s := (State.reset.jump 0x0FFE).withFetchWord 16 0x8127
     s.halted = false ∧ s.pc.toNat + 1 ≤ 4095 ∧
     (0x8127#16).toNat = 0x100 * (s.mem.read s.pc.toNat).toNat + (s.mem.read (s.pc.toNat + 1)).toNat ∧
     ∃ r ∈ opcodeMap, 0x8127#16 &&& r.mask = r.pattern) := by decide

theorem witness_EncodeOfDecodeIsTheWord : decode 0x8FE6#16 = .ok (.shr 0xF 0xE) := by decide

/-- A row and a word it selects, and a row and a word it does not. -/
theorem witness_DecodeSelectsTheMatchingRow :
    ⟨"SHR_Vx", 0xF00F, 0x8006⟩ ∈ opcodeMap ∧ 0x8FE6#16 &&& 0xF00F = 0x8006 ∧
    0x8FE7#16 &&& 0xF00F ≠ 0x8006 := by decide

theorem witness_UnknownWordsAreThoseOfTheTableAndHalt :
    let s := (State.reset.jump 0x0FFE).withFetchWord 16 0xF166
    s.halted = false ∧ s.pc.toNat + 1 ≤ 4095 ∧
    (0xF166#16).toNat = 0x100 * (s.mem.read s.pc.toNat).toNat + (s.mem.read (s.pc.toNat + 1)).toNat ∧
    unknownWord 0xF166 = true ∧ unknownWord 0xF165 = false := by decide

/-- x = F and x ≠ F both occur, with and without the flag set. -/
theorem witness_AddRegistersWithCarry :
    (1 : Reg) ≠ Reg.flag ∧ (withRegs [(1, 255), (2, 1)]).reg 1 = 255 ∧
    ((withRegs [(1, 255), (2, 1)]).reg 1).toNat + ((withRegs [(1, 255), (2, 1)]).reg 2).toNat > 255 ∧
    ¬((withRegs [(1, 255)]).reg 1).toNat + ((withRegs [(1, 255)]).reg 2).toNat > 255 := by decide
theorem witness_SubtractBothWays :
    (1 : Reg) ≠ Reg.flag ∧
    ¬((withRegs [(1, 7), (2, 7)]).reg 2).toNat > ((withRegs [(1, 7), (2, 7)]).reg 1).toNat ∧
    ((withRegs [(1, 7), (2, 8)]).reg 2).toNat > ((withRegs [(1, 7), (2, 8)]).reg 1).toNat := by decide
theorem witness_ShiftsIgnoreTheirSecondField : (14 : Reg) ≠ Reg.flag := by decide

/-- sp at 15, the last depth that takes a CALL, and at 16. -/
theorem witness_CallPushesOrOverflows :
    ({ State.reset with sp := 15 } : State).sp.val < 16 ∧
    ({ State.reset with sp := 16 } : State).sp.val = 16 := by decide
/-- sp at 16 (entry 15), at 1 (entry 0) and at 0. -/
theorem witness_ReturnPopsOrUnderflows :
    ({ State.reset with sp := 16 } : State).sp.val = (15 : Fin 16).val + 1 ∧
    ({ State.reset with sp := 1 } : State).sp.val = (0 : Fin 16).val + 1 ∧
    State.reset.sp.val = 0 := by decide
theorem witness_CallThenReturnComesBack : ({ State.reset with sp := 15 } : State).sp.val < 16 := by decide

/-- The two trailing nibbles that bound the unknown words of the skips. -/
theorem witness_SkipsOnRegisters : (1 ≤ 1 ∧ 1 ≤ 15) ∧ (1 ≤ 15 ∧ 15 ≤ 15) := by decide

/-- An instruction that completes, and one that halts, on running states. -/
theorem witness_PcAdvanceOfEveryInstruction :
    State.reset.halted = false ∧ exec (.jp 0x300) State.reset = .next (State.reset.jump 0x300) ∧
    exec .ret State.reset = .next (State.reset.takeHalt .stackUnderflow 0) :=
  ⟨by decide, eq_next_of_nextOf (by decide), eq_next_of_nextOf (by decide)⟩

/-- I + 2 at 4095 and at 4096. -/
theorem witness_BcdStoresThreeDigits :
    (State.reset.setIndex 0x0FFD).I.toNat + 2 ≤ 4095 ∧
    (State.reset.setIndex 0x0FFE).I.toNat + 2 > 4095 := by decide
/-- I + x at 4095 and at 4096, for x = 15 and for x = 0. -/
theorem witness_DumpStoresTheRegisters :
    (State.reset.setIndex 0x0FF0).I.toNat + (15 : Reg).val ≤ 4095 ∧ (15 : Reg).val ≤ (15 : Reg).val ∧
    (State.reset.setIndex 0x0FF1).I.toNat + (15 : Reg).val > 4095 ∧
    (State.reset.setIndex 0x0FFF).I.toNat + (0 : Reg).val ≤ 4095 ∧
    (State.reset.setIndex 0x1000).I.toNat + (0 : Reg).val > 4095 := by decide
theorem witness_FillLoadsTheRegisters :
    (State.reset.setIndex 0x0FF0).I.toNat + (15 : Reg).val ≤ 4095 ∧
    (State.reset.setIndex 0x0FF1).I.toNat + (15 : Reg).val > 4095 ∧
    (State.reset.setIndex 0x0FFF).I.toNat + (0 : Reg).val ≤ 4095 ∧
    (State.reset.setIndex 0x1000).I.toNat + (0 : Reg).val > 4095 := by decide
/-- The state after a dump, and another state with that memory and that I. -/
theorem witness_DumpThenFillRestores :
    let s := (withRegs [(0, 1), (1, 2)]).setIndex 0x0FFE
    let t := (poke s 0x0FFE [1, 2]).advance 2
    s.I.toNat + (1 : Reg).val ≤ 4095 ∧ exec (.dumpRegs 1) s = .next t ∧
    (t.setReg 0 0x77).mem = t.mem ∧ (t.setReg 0 0x77).I = t.I :=
  ⟨by decide, eq_next_of_nextOf (by decide), by decide⟩
/-- V-C17: LD [I], V1 at 0x200 with I = 0x202 stores the word that pc then stands on. -/
theorem witness_StoredBytesAreFetchedByTheNextStep :
    let s := (withRegs [(0, 0x12), (1, 0x34)]).setIndex 0x0202
    let t := (poke s 0x0202 [0x12, 0x34]).advance 2
    s.I.toNat + (1 : Reg).val ≤ 4095 ∧ exec (.dumpRegs 1) s = .next t ∧
    (1 : Reg).val = (0 : Reg).val + 1 ∧ t.pc.toNat = s.I.toNat + (0 : Reg).val ∧ t.halted = false ∧
    decode (s.reg 0 ++ s.reg 1) = .ok (.jp 0x234) :=
  ⟨by decide, eq_next_of_nextOf (by decide), by decide⟩
/-- A fetch at 4095; a sprite, digits and registers whose last byte would be 4096; a jump that leaves the
halt cause it finds; and, on a state that has cause 4, no sprite row, and a sprite row, digits and registers
whose last byte is 4095. -/
theorem witness_AddressRangeHaltsAreTheFive :
    let h := State.reset.takeHalt .addressRange 0x1000
    ((State.reset.jump 0x0FFF).halted = false ∧ (State.reset.jump 0x0FFF).pc.toNat + 1 > 4095) ∧
    (1 ≤ (1#4).toNat ∧ (State.reset.setIndex 0x1000).I.toNat + (1#4).toNat - 1 > 4095) ∧
    (State.reset.setIndex 0x0FFE).I.toNat + 2 > 4095 ∧
    (State.reset.setIndex 0x0FF1).I.toNat + (15 : Reg).val > 4095 ∧
    ((Instr.jp 0x300).mnemonic ∉ ["DRW_Vx__Vy__n", "LD_B__Vx", "LD__I___Vx", "LD_Vx___I"] ∧
      exec (.jp 0x300) h = .next (h.jump 0x300) ∧ (h.jump 0x300).haltCause = 4) ∧
    ((0#4).toNat = 0 ∧ causeAfter (.drw 0 0 0) (h.setIndex 0x1000) = some 4) ∧
    ((h.setIndex 0x0FFF).I.toNat + (1#4).toNat - 1 ≤ 4095 ∧
      causeAfter (.drw 0 0 1) (h.setIndex 0x0FFF) = some 4) ∧
    ((h.setIndex 0x0FFD).I.toNat + 2 ≤ 4095 ∧ causeAfter (.ldBcd 0) (h.setIndex 0x0FFD) = some 4) ∧
    (h.setIndex 0x0FF0).I.toNat + (15 : Reg).val ≤ 4095 ∧
    causeAfter (.dumpRegs 15) (h.setIndex 0x0FF0) = some 4 ∧
    causeAfter (.fillRegs 15) (h.setIndex 0x0FF0) = some 4 :=
  ⟨by decide, by decide, by decide, by decide, ⟨by decide, eq_next_of_nextOf (by decide), by decide⟩,
    by decide⟩

/-- n = 0 with I beyond memory; a last byte at 4095; a last byte at 4096; a targeted cell that is 1; and a
targeted cell with all targeted cells 0. -/
theorem witness_DrawInvertsExactlyTheTargetedCells :
    let s := poke (State.reset.setIndex 0x300) 0x300 [0x80]
    ((0#4).toNat = 0 ∧ (State.reset.setIndex 0x1000).I.toNat > 4095) ∧
    (State.reset.setIndex 0x0FFE).I.toNat + (2#4).toNat - 1 ≤ 4095 ∧
    (1 ≤ (3#4).toNat ∧ (State.reset.setIndex 0x0FFE).I.toNat + (3#4).toNat - 1 > 4095) ∧
    (∃ col row, Targeted (light s 0 0) 0 0 1#4 col row ∧ (light s 0 0).disp.cell col row = true) ∧
    (∃ col row, Targeted s 0 0 1#4 col row) ∧
    (∀ col row, Targeted s 0 0 1#4 col row → s.disp.cell col row = false) := by
  refine ⟨by decide, by decide, by decide, ⟨0, 0, ⟨0, 0, by decide⟩, by decide⟩, ⟨0, 0, 0, 0, by decide⟩,
    fun col row _ => ?_⟩
  change State.reset.disp.cell col row = false
  simp [State.reset, Display.cell]

/-- A draw whose origin registers are kept, so that the second draw has the same origin. -/
theorem witness_DrawingTwiceRestoresTheDisplay :
    let s := poke ((withRegs [(1, 60)]).setIndex 0x0FFF) 0x0FFF [0xFF]
    s.I.toNat + (1#4).toNat - 1 ≤ 4095 ∧
    ∃ t, exec (.drw 1 2 1#4) s = .next t ∧ t.reg 1 = s.reg 1 ∧ t.reg 2 = s.reg 2 :=
  ⟨by decide, _, rfl, by decide, by decide⟩

/-- S8, with the sprite's byte the last of memory. -/
theorem witness_SpriteWrapsAtTheRightEdge :
    let s := poke ((withRegs [(1, 60)]).setIndex 0x0FFF) 0x0FFF [0xFF]
    (s.reg 1).toNat = 60 ∧ (s.reg 2).toNat = 0 ∧ s.I.toNat ≤ 4095 ∧ s.mem.read s.I.toNat = 0xFF#8 ∧
    ∀ col row, s.disp.cell col row = false := by
  refine ⟨by decide, by decide, by decide, by decide, fun col row => ?_⟩
  change State.reset.disp.cell col row = false
  simp [State.reset, Display.cell]

/-- V[x] = 15 and V[x] = 16. -/
theorem witness_KeySkipsTestTheKeyNumbered :
    ((withRegs [(5, 15)]).reg 5).toNat = (15 : Key).val ∧ ((withRegs [(5, 16)]).reg 5).toNat > 15 := by decide
/-- No key pressed; one key pressed. -/
theorem witness_KeyWaitStoresAPressedKeyOrWaits :
    (∀ k : Key, State.reset.key[k.val] = false) ∧ ∃ k : Key, (press State.reset 15).key[k.val] = true := by
  decide

/-- A halt at decode, and one at the fetch. -/
theorem witness_HaltsArePrecise :
    (State.reset.halted = false ∧
     step State.reset = .next ((State.reset.latch 0).takeHalt .unknownOpcode 0) ∧
     ((State.reset.latch 0).takeHalt .unknownOpcode 0).halted = true) ∧
    let s := State.reset.jump 0x0FFF
    s.halted = false ∧ step s = .next (s.takeHalt .addressRange 0x1000) ∧
    (s.takeHalt .addressRange 0x1000).halted = true ∧ s.pc.toNat + 1 > 4095 :=
  ⟨⟨by decide, eq_next_of_nextOf (by decide), by decide⟩, by decide, eq_next_of_nextOf (by decide),
    by decide⟩
/-- A halted state, on which `exec` and an event other than `reset` answer a next state. -/
theorem witness_OnlyResetLeavesAHalt :
    let s := State.reset.takeHalt .stackOverflow 0x2222
    s.halted = true ∧ exec (.jp 0x300) s = .next (s.jump 0x300) ∧ Event.tick ≠ .reset ∧
    event false .tick s = .next s.tick :=
  ⟨by decide, eq_next_of_nextOf (by decide), by decide, rfl⟩
/-- The last address that exists, and the two ways to break the host's duty. -/
theorem witness_HostEventsDoWhatTheTableSays :
    4095 < 4096 ∧ (false = false ∨ 4096 ≤ 4095) ∧ (true = false ∨ 4096 ≤ 4096) := by decide

/-- A running state and an instruction that neither names nor writes VF; a flag writer that completes. -/
theorem witness_OnlyTheSevenFlagWritersTouchVF :
    (State.reset.halted = false ∧ exec (.jp 0x300) State.reset = .next (State.reset.jump 0x300) ∧
     (Instr.jp 0x300).mnemonic ∉ flagWriters ∧ ¬NamesFlag (.jp 0x300)) ∧
    (∃ t, exec (.addReg 1 2) State.reset = .next t ∧ (Instr.addReg 1 2).mnemonic ∈ flagWriters ∧
     t.halted = false) :=
  ⟨⟨by decide, eq_next_of_nextOf (by decide), by decide, not_false⟩, _, rfl, by decide, by decide⟩
theorem witness_VFIsReadOnlyWhereNamed :
    ¬NamesFlag (.subReg 1 2) ∧ ∃ t, exec (.subReg 1 2) State.reset = .next t := by
  exact ⟨fun h => by rcases h with h | h <;> exact absurd h (by decide), _, rfl⟩
/-- A jump, which is in no list but pc's. -/
theorem witness_EachPartHasItsOwnWriters :
    (∃ t, exec (.jp 0x300) State.reset = .next t) ∧ (Instr.jp 0x300).mnemonic ∉ ["LD_B__Vx", "LD__I___Vx"] ∧
    (Instr.jp 0x300).mnemonic ∉ ["LD_Vx__nn", "ADD_Vx__nn", "LD_Vx__Vy", "OR_Vx__Vy", "AND_Vx__Vy",
      "XOR_Vx__Vy", "ADD_Vx__Vy", "SUB_Vx__Vy", "SHR_Vx", "SUBN_Vx__Vy", "SHL_Vx", "RND_Vx__nn", "LD_Vx___I",
      "LD_Vx__K", "LD_Vx__DT", "DRW_Vx__Vy__n", "ADD_I__Vx"] ∧
    (Instr.jp 0x300).mnemonic ∉ ["LD_I__nnn", "ADD_I__Vx", "LD_F__Vx"] ∧
    (Instr.jp 0x300).mnemonic ∉ ["CALL_nnn", "RET"] ∧ (Instr.jp 0x300).mnemonic ∉ ["LD_DT__Vx"] ∧
    (Instr.jp 0x300).mnemonic ∉ ["LD_ST__Vx"] ∧ (Instr.jp 0x300).mnemonic ∉ ["CLS", "DRW_Vx__Vy__n"] ∧
    (Instr.jp 0x300).mnemonic ∉ ["CALL_nnn", "RET", "SKP_Vx", "SKNP_Vx", "DRW_Vx__Vy__n", "LD_B__Vx",
      "LD__I___Vx", "LD_Vx___I"] ∧
    (Instr.jp 0x300).mnemonic ∉ ["RND_Vx__nn", "LD_Vx__K"] :=
  ⟨⟨_, rfl⟩, by decide⟩

theorem witness_StepKeepsTheInvariant :
    let s := State.reset.withFetchWord 16 0x6A2F
    Inv s ∧ ∃ t, step s = .next t := by
  refine ⟨by decide, _, rfl⟩
/-- pc at the bound the invariant gives, and a saved pc at its bound. -/
theorem witness_StepKeepsPcBounded :
    let s : State := { State.reset with pc := 0x1002, stack := State.reset.stack.set 15 0x1000 }
    PcBounded s ∧ ∃ t, step s = .next t := by
  refine ⟨by decide, _, rfl⟩
/-- An endless sequence of events: one byte loaded at the last address, then ticks. -/
def loadThenTick (n : Nat) : Event := if n = 0 then .hostLoad 0x0FFF 7 else .tick
/-- The states it gives. -/
def loadedThenTicked (n : Nat) : State := if n = 0 then State.reset else poke State.reset 0x0FFF [7]

/-- A state reached, and an infinite run. -/
theorem witness_EveryReachableStateMeetsTheInvariants :
    Reachable (poke State.reset 0x200 [0x12]) ∧ InfiniteRun loadThenTick loadedThenTicked := by
  refine ⟨⟨[.hostLoad 0x200 0x12], eq_next_of_nextOf (by decide)⟩, rfl, fun n => ?_⟩
  cases n with
  | zero => exact eq_next_of_nextOf (by decide)
  | succ n =>
    exact congrArg Host.Outcome.next
      (by decide : (poke State.reset 0x0FFF [7]).tick = poke State.reset 0x0FFF [7])

/-- A tick of a halted state that no run reaches: a stack overflow with an empty stack. -/
theorem witness_EveryEventKeepsTheInvariants :
    let s := (State.reset.setSound 2).takeHalt .stackOverflow 0x2222
    Inv s ∧ PcBounded s ∧ event false .tick s = .next s.tick := by
  refine ⟨by decide, by decide, rfl⟩
/-- Sequences that keep the duty and that break it, by the address and by the time. -/
theorem witness_SequencesThatKeepTheDutiesAreTheRuns :
    dutiesKept true [.hostLoad 0x0FFF 7, .step, .reset, .hostLoad 0 1] = true ∧
    dutiesKept true [.hostLoad 0x1000 7] = false ∧ dutiesKept true [.step, .hostLoad 0x0FFF 7] = false ∧
    DutiesKeptForever loadThenTick := by
  refine ⟨by decide, by decide, by decide, fun n => ?_⟩
  cases n <;> rfl
/-- Two states that differ in their place in the stream of inputs alone. -/
theorem witness_OnlyTheTwoFreeInputsSeeTheDrawCounter :
    (Instr.jp 0x300).mnemonic ∉ ["RND_Vx__nn", "LD_Vx__K"] ∧
    State.reset.toArch = State.reset.drawn.toArch ∧ State.reset ≠ State.reset.drawn := by decide

end Sys2Proof.Tests
end

section
/-! SUPPORT. Rules for the outcomes of the shared operations: each turns `Ends` of an operation into one goal per
thing that the operation can do. -/

namespace Sys2Proof.Machine

variable {s : State} {P : State → Prop}

/-- What ends with `P` answers only states of which `P` holds. -/
theorem Ends.of_eq_next {o : Result} {t : State} (h : Ends o P) (ho : o = .next t) : P t := by
  obtain ⟨u, hu, hP⟩ := h
  cases hu.symm.trans ho
  exact hP

theorem Ends.withAccess {a n : Nat} {k : Result} (hhalt : ∀ c v, P (s.takeHalt c v))
    (hk : n = 0 ∨ a + n ≤ 4096 → Ends k P) : Ends (withAccess s a n k) P := by
  rcases withAccess_cases s a n k with ⟨hin, e⟩ | ⟨_, _, e⟩ <;> rw [e]
  · exact hk hin
  · exact ⟨_, rfl, hhalt _ _⟩

theorem Ends.withKey {k : Byte} {go : Bool → Result} (hhalt : ∀ c v, P (s.takeHalt c v))
    (hgo : ∀ b, Ends (go b) P) : Ends (withKey s k go) P := by
  unfold Sys2Proof.Machine.withKey
  split
  · exact hgo _
  · exact ⟨_, rfl, hhalt _ _⟩

theorem Ends.execSkp {x : Reg} (hhalt : ∀ c v, P (s.takeHalt c v)) (hskip : ∀ c, P (s.skipIf c)) :
    Ends (execSkp x s) P :=
  .withKey hhalt fun down => ⟨_, rfl, hskip down⟩

theorem Ends.execSknp {x : Reg} (hhalt : ∀ c v, P (s.takeHalt c v)) (hskip : ∀ c, P (s.skipIf c)) :
    Ends (execSknp x s) P :=
  .withKey hhalt fun down => ⟨_, rfl, hskip !down⟩

theorem Ends.execRet (hhalt : ∀ c v, P (s.takeHalt c v))
    (hpop : ∀ k : Fin 16, ∀ sp, P { s with sp := sp, pc := s.stack[k.val] }) : Ends (execRet s) P := by
  unfold Sys2Proof.Machine.execRet
  rcases s.pop_cases with ⟨_, e⟩ | ⟨_, e⟩ <;> rw [e]
  · exact ⟨_, rfl, hhalt _ _⟩
  · exact ⟨_, rfl, hpop ⟨s.sp.val - 1, by omega⟩ _⟩

theorem Ends.execCall {nnn : Addr12} (hhalt : ∀ c v, P (s.takeHalt c v))
    (hpush : ∀ k : Fin 16, ∀ sp,
      P { s with stack := s.stack.set k.val (s.pc + 2), sp := sp, pc := addrOperand nnn }) :
    Ends (execCall nnn s) P := by
  unfold Sys2Proof.Machine.execCall
  rcases s.push_cases (s.pc + 2) with ⟨_, e⟩ | ⟨hlt, e⟩ <;> rw [e]
  · exact ⟨_, rfl, hhalt _ _⟩
  · exact ⟨_, rfl, hpush ⟨s.sp.val, hlt⟩ _⟩

theorem Ends.execLdKey {x : Reg} (hwait : P s) (hkey : ∀ v, P ((s.drawn.setReg x v).advance 2)) :
    Ends (execLdKey x s) P := by
  unfold Sys2Proof.Machine.execLdKey
  cases s.pickKey with
  | none => exact ⟨_, rfl, hwait⟩
  | some k => exact ⟨_, rfl, hkey _⟩

end Sys2Proof.Machine
end

section
/-! SUPPORT. The invariants over one instruction, one step and one event (10_state.md R15, R22). -/

namespace Sys2Proof.Machine

/-! ### Memory -/

/-- Memory is as before but for bytes stored inside it, perhaps none. -/
def StoresInside (s t : State) : Prop :=
  ∃ a bs, a + bs.length ≤ Config.memSize ∧ t.mem = s.mem.writeBytes a bs

theorem StoresInside.of_mem_eq {s t : State} (h : t.mem = s.mem) : StoresInside s t :=
  ⟨0, [], Nat.zero_le _, h⟩

theorem StoresInside.keeps_wf {s t : State} (h : StoresInside s t) (hs : s.mem.wf) : t.mem.wf := by
  obtain ⟨a, bs, hin, e⟩ := h
  exact e ▸ Memory.wf_writeBytes bs s.mem a hs hin

@[simp] theorem length_bcdDigits (a : Byte) : (bcdDigits a).length = 3 := rfl

@[simp] theorem State.length_regsThrough (s : State) (x : Reg) : (s.regsThrough x).length = x.val + 1 := by
  simp [State.regsThrough]

/-- An instruction stores inside memory or not at all: the range check comes first (20_memory.md R32). -/
theorem exec_storesInside (i : Instr) (s : State) : Ends (exec i s) (StoresInside s) := by
  have hhalt : ∀ c v, StoresInside s (s.takeHalt c v) := fun _ _ => .of_mem_eq rfl
  cases i with
  | ldBcd x =>
    exact .withAccess hhalt fun hin => ⟨_, rfl, s.effAddr 0, bcdDigits (s.reg x),
      by rw [length_bcdDigits, Config.memSize]; omega, rfl⟩
  | dumpRegs x =>
    exact .withAccess hhalt fun hin => ⟨_, rfl, s.effAddr 0, s.regsThrough x,
      by rw [State.length_regsThrough, Config.memSize]; omega, rfl⟩
  | fillRegs x => exact .withAccess hhalt fun _ => ⟨_, rfl, .of_mem_eq rfl⟩
  | drw x y n => exact .withAccess hhalt fun _ => ⟨_, rfl, .of_mem_eq rfl⟩
  | ret => exact .execRet hhalt fun _ _ => .of_mem_eq rfl
  | call nnn => exact .execCall hhalt fun _ _ => .of_mem_eq rfl
  | skp x => exact .execSkp hhalt fun _ => .of_mem_eq rfl
  | sknp x => exact .execSknp hhalt fun _ => .of_mem_eq rfl
  | ldKey x => exact .execLdKey (.of_mem_eq rfl) fun _ => .of_mem_eq rfl
  | _ => exact ⟨_, rfl, .of_mem_eq rfl⟩

/-! ### The halt registers -/

theorem HaltCause.code_bounds (c : HaltCause) : 1 ≤ c.code.toNat ∧ c.code.toNat ≤ 5 := by
  cases c <;> decide

theorem HaltRegsAgree.takeHalt (s : State) (c : HaltCause) (v : Nat) : HaltRegsAgree (s.takeHalt c v) :=
  ⟨by simp, fun _ => c.code_bounds⟩

theorem HaltRegsAgree.of_sameHalt {s t : State} (h : SameHalt s t) (hs : HaltRegsAgree s) :
    HaltRegsAgree t := by
  obtain ⟨h1, h2, h3⟩ := h
  rwa [HaltRegsAgree, h1, h2, h3]

theorem Inv.exec (i : Instr) {s : State} (hs : Inv s) : Ends (exec i s) Inv := by
  obtain ⟨t, ht, hcase⟩ := exec_cases i s
  refine ⟨t, ht, ((exec_storesInside i s).of_eq_next ht).keeps_wf hs.1, ?_⟩
  rcases hcase with ⟨c, v, rfl⟩ | hsame
  · exact .takeHalt s c v
  · exact .of_sameHalt hsame hs.2

theorem Inv.step {s : State} (hs : Inv s) : Ends (step s) Inv := by
  rcases step_cases s with ⟨_, e⟩ | ⟨_, _, e⟩ | ⟨_, _, _, e⟩ | ⟨_, _, i, _, e⟩ <;> rw [e]
  · exact ⟨_, rfl, hs⟩
  · exact ⟨_, rfl, hs.1, .takeHalt _ _ _⟩
  · exact ⟨_, rfl, hs.1, .takeHalt _ _ _⟩
  · exact Inv.exec i (s := s.latch s.nextWord) hs

/-! ### pc and the saved pcs -/

/-- An instruction that was fetched and moves pc by at most 4 leaves it in bounds. -/
theorem PcBounded.of_advance {s t : State} (hs : PcBounded s) (hpc : s.pc.toNat ≤ 4094) (k : Word)
    (hk : k.toNat ≤ 4) (hp : t.pc = s.pc + k) (hst : t.stack = s.stack) : PcBounded t := by
  refine ⟨?_, hst ▸ hs.2⟩
  rw [hp, BitVec.toNat_add]
  omega

theorem PcBounded.skipIf {s : State} (hs : PcBounded s) (hpc : s.pc.toNat ≤ 4094) (c : Bool) :
    PcBounded (s.skipIf c) :=
  hs.of_advance hpc (if c then 4 else 2) (by cases c <;> decide) rfl rfl

theorem addrOperand_le (nnn : Addr12) : (addrOperand nnn).toNat ≤ 0x1002 := by
  have := nnn.isLt
  simp only [addrOperand, BitVec.toNat_setWidth]
  omega

/-- R15's bounds hold after every instruction that was fetched, so at a pc of at most 4094. -/
theorem PcBounded.exec (i : Instr) {s : State} (hs : PcBounded s) (hpc : s.pc.toNat ≤ 4094) :
    Ends (exec i s) PcBounded := by
  have hhalt : ∀ c v, PcBounded (s.takeHalt c v) := fun _ _ => hs
  have hnext : ∀ t : State, t.pc = s.pc + 2 → t.stack = s.stack → PcBounded t :=
    fun _ => hs.of_advance hpc 2 (by decide)
  cases i with
  | jp nnn => exact ⟨_, rfl, addrOperand_le nnn, hs.2⟩
  | call nnn =>
    refine .execCall hhalt fun k _ => ⟨addrOperand_le nnn, fun j => ?_⟩
    have hret : (s.pc + 2).toNat ≤ 0x1000 := by
      rw [BitVec.toNat_add, show (2 : Word).toNat = 2 from rfl]
      omega
    rw [Vector.getElem_set]
    split
    · exact hret
    · exact hs.2 j
  | ret => exact .execRet hhalt fun k _ => ⟨(hs.2 k).trans (by decide), hs.2⟩
  | seImm x nn => exact ⟨_, rfl, hs.skipIf hpc _⟩
  | sneImm x nn => exact ⟨_, rfl, hs.skipIf hpc _⟩
  | seReg x y => exact ⟨_, rfl, hs.skipIf hpc _⟩
  | sneReg x y => exact ⟨_, rfl, hs.skipIf hpc _⟩
  | skp x => exact .execSkp hhalt (hs.skipIf hpc)
  | sknp x => exact .execSknp hhalt (hs.skipIf hpc)
  | ldKey x => exact .execLdKey hs fun _ => hnext _ rfl rfl
  | ldBcd x => exact .withAccess hhalt fun _ => ⟨_, rfl, hnext _ rfl rfl⟩
  | dumpRegs x => exact .withAccess hhalt fun _ => ⟨_, rfl, hnext _ rfl rfl⟩
  | fillRegs x => exact .withAccess hhalt fun _ => ⟨_, rfl, hnext _ rfl rfl⟩
  | drw x y n => exact .withAccess hhalt fun _ => ⟨_, rfl, hnext _ rfl rfl⟩
  | _ => exact ⟨_, rfl, hnext _ rfl rfl⟩

theorem PcBounded.step {s : State} (hs : PcBounded s) : Ends (step s) PcBounded := by
  rcases step_cases s with ⟨_, e⟩ | ⟨_, _, e⟩ | ⟨_, _, _, e⟩ | ⟨_, hpc, i, _, e⟩ <;> rw [e]
  · exact ⟨_, rfl, hs⟩
  · exact ⟨_, rfl, hs⟩
  · exact ⟨_, rfl, hs⟩
  · exact PcBounded.exec i (s := s.latch s.nextWord) hs hpc

/-! ### Resets and events -/

/-- A reset state meets both invariants, wherever it stands in the stream of free inputs. -/
theorem resetEvent_meets_invariants (s : State) : Inv s.resetEvent ∧ PcBounded s.resetEvent := by
  have hcore : Inv State.reset ∧ PcBounded State.reset := by decide
  exact hcore

/-- Every event that happens keeps both invariants. -/
theorem event_keeps_invariants (loading : Bool) (e : Event) (s t : State) (hi : Inv s)
    (hb : PcBounded s) (h : event loading e s = .next t) : Inv t ∧ PcBounded t := by
  cases e with
  | reset => cases h; exact resetEvent_meets_invariants s
  | step => exact ⟨hi.step.of_eq_next h, hb.step.of_eq_next h⟩
  | hostLoad addr byte =>
    simp only [event] at h
    split at h
    · next hload =>
      cases h
      have haddr : addr < Config.memSize := ((loadAllowed_eq_true loading addr).1 hload).2
      exact ⟨⟨Memory.wf_write s.mem addr byte hi.1 haddr, hi.2⟩, hb⟩
    · cases h
  | _ => cases h; exact ⟨hi, hb⟩

end Sys2Proof.Machine
end

section
/-! SUPPORT. Runs: the induction over a run, packaged once, and the states of an infinite run
(00_scope.md R9, 70_reset_and_hazards.md R146). -/

namespace Sys2Proof.Machine

/-- A sequence runs when its first event has a transition and the rest runs from where it leads. -/
theorem runEvents_cons_eq_next (loading : Bool) (e : Event) (es : List Event) (s u : State) :
    runEvents loading (e :: es) s = .next u ↔
      ∃ t, event loading e s = .next t ∧ runEvents (loadingAfter loading e) es t = .next u := by
  rw [runEvents]
  cases event loading e s <;> simp

/-- What every event keeps holds at the end of every sequence of events. -/
theorem runEvents_keeps {P : State → Prop}
    (hevent : ∀ loading e s t, P s → event loading e s = .next t → P t) (es : List Event)
    (loading : Bool) (s u : State) (hs : P s) (h : runEvents loading es s = .next u) : P u := by
  induction es generalizing loading s with
  | nil => cases h; exact hs
  | cons e es ih =>
    obtain ⟨t, ht, hrest⟩ := (runEvents_cons_eq_next loading e es s u).1 h
    exact ih _ t (hevent loading e s t hs ht) hrest

theorem Reachable.meets_invariants {s : State} (h : Reachable s) : Inv s ∧ PcBounded s := by
  obtain ⟨es, hrun⟩ := h
  refine runEvents_keeps (P := fun s => Inv s ∧ PcBounded s) ?_ es true State.reset s ?_ hrun
  · exact fun loading e s t hs => event_keeps_invariants loading e s t hs.1 hs.2
  · exact resetEvent_meets_invariants State.reset

/-- An event has a transition exactly when it keeps the host's duty. -/
theorem dutyKept_iff_event_next (loading : Bool) (e : Event) (s : State) :
    dutyKept loading e = true ↔ ∃ t, event loading e s = .next t := by
  rcases event_cases loading e s with ⟨hkept, ht⟩ | ⟨hbroken, hrefused⟩
  · exact iff_of_true hkept ht
  · simp [hbroken, hrefused]

/-- A finite sequence of events runs, from any state, exactly when it keeps the host's duty. -/
theorem dutiesKept_iff_runEvents_next (es : List Event) (loading : Bool) (s : State) :
    dutiesKept loading es = true ↔ ∃ t, runEvents loading es s = .next t := by
  induction es generalizing loading s with
  | nil => exact iff_of_true rfl ⟨s, rfl⟩
  | cons e es ih =>
    rw [dutiesKept, Bool.and_eq_true, dutyKept_iff_event_next loading e s]
    simp only [runEvents_cons_eq_next]
    constructor
    · rintro ⟨⟨t, ht⟩, hes⟩
      obtain ⟨u, hu⟩ := (ih _ t).1 hes
      exact ⟨u, t, ht, hu⟩
    · rintro ⟨u, t, ht, hu⟩
      exact ⟨⟨t, ht⟩, (ih _ t).2 ⟨u, hu⟩⟩

/-- The states that an infinite sequence of events takes the constructed core through; an event without a
transition is passed over. -/
def statesOf (events : Nat → Event) : Nat → State
  | 0 => State.reset
  | n + 1 =>
    match event (loadingAt events n) (events n) (statesOf events n) with
    | .next t => t
    | _ => statesOf events n

theorem statesOf_succ {events : Nat → Event} {n : Nat} {t : State}
    (h : event (loadingAt events n) (events n) (statesOf events n) = .next t) :
    statesOf events (n + 1) = t := by
  rw [statesOf, h]

theorem DutiesKeptForever.infiniteRun {events : Nat → Event} (h : DutiesKeptForever events) :
    InfiniteRun events (statesOf events) := by
  refine ⟨rfl, fun n => ?_⟩
  obtain ⟨t, ht⟩ := (dutyKept_iff_event_next _ _ (statesOf events n)).1 (h n)
  rw [ht, statesOf_succ ht]

theorem InfiniteRun.dutiesKeptForever {events : Nat → Event} {states : Nat → State}
    (h : InfiniteRun events states) : DutiesKeptForever events :=
  fun n => (dutyKept_iff_event_next _ _ (states n)).2 ⟨_, h.2 n⟩

end Sys2Proof.Machine
end

section
/-! PROOFS. The statements of 00_scope.md. -/

namespace Sys2Proof.Machine

/-- Settles O50: the reset state meets the invariants, every event keeps them, and every state of an infinite
run ends a finite one. -/
theorem everyReachableStateMeetsTheInvariants : Obligations.EveryReachableStateMeetsTheInvariants :=
  ⟨fun _ h => h.meets_invariants, fun _ _ hrun n => (hrun.reachable n).meets_invariants⟩

/-- Settles O52: an event has a transition exactly when it keeps the duty, so by induction on the sequence a
finite one runs, and state by state an infinite one. -/
theorem sequencesThatKeepTheDutiesAreTheRuns : Obligations.SequencesThatKeepTheDutiesAreTheRuns :=
  ⟨fun es => dutiesKept_iff_runEvents_next es true State.reset,
    fun _ => ⟨fun h => ⟨_, h.infiniteRun⟩, fun ⟨_, hrun⟩ => hrun.dutiesKeptForever⟩⟩

end Sys2Proof.Machine
end

section
/-! SUPPORT. Frames: the parts that each update of the state leaves alone, and the parts and registers that each
instruction may write (10_state.md R10, the "written by" column). -/

namespace Sys2Proof.Machine

/-! ### The updates of the state -/

theorem Part.Same.refl (s : State) (p : Part) : p.Same s s := by
  cases p <;> simp [Part.Same]

theorem Part.Same.trans {p : Part} {s t u : State} (h : p.Same s t) (h' : p.Same t u) : p.Same s u := by
  cases p <;> simp_all [Part.Same]

theorem KeepsAllBut.refl (ps : List Part) (s : State) : KeepsAllBut ps s s := fun p _ => .refl s p

/-- One update after another keeps the parts that neither writes. -/
theorem KeepsAllBut.trans {ps qs : List Part} {s t u : State} (h : KeepsAllBut ps s t)
    (h' : KeepsAllBut qs t u) : KeepsAllBut (ps ++ qs) s u := fun p hp =>
  (h p fun hm => hp (List.mem_append_left qs hm)).trans (h' p fun hm => hp (List.mem_append_right ps hm))

theorem KeepsAllBut.mono {ps qs : List Part} {s t : State} (h : KeepsAllBut ps s t) (hsub : ps ⊆ qs) :
    KeepsAllBut qs s t := fun p hp => h p fun hm => hp (hsub hm)

namespace State

variable (s : State)

@[simp] theorem reg_setKey (k : Key) (b : Bool) (r : Reg) : (s.setKey k b).reg r = s.reg r := rfl
@[simp] theorem reg_clearRedraw (r : Reg) : s.clearRedraw.reg r = s.reg r := rfl

theorem setReg_keeps (x : Reg) (v : Byte) : KeepsAllBut [.regs] s (s.setReg x v) := by
  intro p hp; cases p <;> simp_all [Part.Same]

theorem setRegsBelow_keeps (n : Nat) (f : Nat → Byte) : KeepsAllBut [.regs] s (s.setRegsBelow n f) := by
  intro p hp; cases p <;> simp_all [Part.Same]

theorem setIndex_keeps (v : Word) : KeepsAllBut [.index] s (s.setIndex v) := by
  intro p hp; cases p <;> simp_all [Part.Same]

theorem setDelay_keeps (v : Byte) : KeepsAllBut [.delay] s (s.setDelay v) := by
  intro p hp; cases p <;> simp_all [Part.Same]

theorem setSound_keeps (v : Byte) : KeepsAllBut [.sound] s (s.setSound v) := by
  intro p hp; cases p <;> simp_all [Part.Same]

theorem setMem_keeps (m : Memory) : KeepsAllBut [.memory] s (s.setMem m) := by
  intro p hp; cases p <;> simp_all [Part.Same]

theorem advance_keeps (k : Word) : KeepsAllBut [.pc] s (s.advance k) := by
  intro p hp; cases p <;> simp_all [Part.Same]

theorem jump_keeps (w : Word) : KeepsAllBut [.pc] s (s.jump w) := by
  intro p hp; cases p <;> simp_all [Part.Same]

theorem drawn_keeps : KeepsAllBut [.draws] s s.drawn := by
  intro p hp; cases p <;> simp_all [Part.Same]

theorem paint_keeps (d : Display) : KeepsAllBut [.display, .redraw] s (s.paint d) := by
  intro p hp; cases p <;> simp_all [Part.Same]

theorem takeHalt_keeps (c : HaltCause) (v : Nat) : KeepsAllBut [.halt] s (s.takeHalt c v) := by
  intro p hp; cases p <;> simp_all [Part.Same]

theorem setKey_keeps (k : Key) (b : Bool) : KeepsAllBut [.keys] s (s.setKey k b) := by
  intro p hp; cases p <;> simp_all [Part.Same]

theorem clearRedraw_keeps : KeepsAllBut [.redraw] s s.clearRedraw := by
  intro p hp; cases p <;> simp_all [Part.Same]

theorem withStack_keeps (stack : Vector Word 16) (sp : Fin 17) :
    KeepsAllBut [.stack] s { s with stack := stack, sp := sp } := by
  intro p hp; cases p <;> simp_all [Part.Same, reg]

end State

/-! ### The parts an instruction may write -/

/-- The parts that an instruction may write, its halt included. -/
def writtenParts : Instr → List Part
  | .cls => [.display, .redraw, .pc]
  | .ret | .call _ => [.stack, .pc, .halt]
  | .jp _ | .seImm _ _ | .sneImm _ _ | .seReg _ _ | .sneReg _ _ => [.pc]
  | .ldImm _ _ | .addImm _ _ | .ldReg _ _ | .orReg _ _ | .andReg _ _ | .xorReg _ _ | .addReg _ _
  | .subReg _ _ | .shr _ _ | .subnReg _ _ | .shl _ _ | .ldFromDelay _ => [.regs, .pc]
  | .rnd _ _ | .ldKey _ => [.draws, .regs, .pc]
  | .skp _ | .sknp _ => [.pc, .halt]
  | .ldToDelay _ => [.delay, .pc]
  | .ldToSound _ => [.sound, .pc]
  | .ldIndex _ | .ldFont _ => [.index, .pc]
  | .addIndex _ => [.index, .regs, .pc]
  | .ldBcd _ | .dumpRegs _ => [.memory, .pc, .halt]
  | .fillRegs _ => [.regs, .pc, .halt]
  | .drw _ _ _ => [.display, .redraw, .regs, .pc, .halt]

theorem KeepsAllBut.takeHalt (ps : List Part) (s : State) (c : HaltCause) (v : Nat) :
    KeepsAllBut (ps ++ [.halt]) s (s.takeHalt c v) :=
  (s.takeHalt_keeps c v).mono (List.subset_append_right ps _)

/-- An access that is in range keeps what the access keeps; one that is not, everything but the halt registers. -/
theorem withAccess_keeps {ps : List Part} {s t : State} {a n : Nat} (h : KeepsAllBut ps s t) :
    Ends (withAccess s a n (.next t)) (KeepsAllBut (ps ++ [.halt]) s) :=
  .withAccess (.takeHalt ps s) fun _ => ⟨t, rfl, h.mono (List.subset_append_left ps _)⟩

/-- The result and its flag are written to general registers. -/
theorem State.setRegAndFlag_keeps (s : State) (x : Reg) (v : Byte) (b : Bool) :
    KeepsAllBut [.regs] s (s.setRegAndFlag x v b) :=
  ((s.setReg_keeps x v).trans (State.setReg_keeps _ Reg.flag _)).mono (by decide)

theorem writeReg_keeps (s : State) (x : Reg) (v : Byte) :
    Ends (writeReg s x v) (KeepsAllBut [.regs, .pc] s) :=
  ⟨_, rfl, (s.setReg_keeps x v).trans (State.advance_keeps _ 2)⟩

theorem writeRegFlag_keeps (s : State) (x : Reg) (v : Byte) (b : Bool) :
    Ends (writeRegFlag s x v b) (KeepsAllBut [.regs, .pc] s) :=
  ⟨_, rfl, (s.setRegAndFlag_keeps x v b).trans (State.advance_keeps _ 2)⟩

/-- An instruction keeps every part that it is not listed for. -/
theorem exec_keeps (i : Instr) (s : State) : Ends (exec i s) (KeepsAllBut (writtenParts i) s) := by
  have hhalt : ∀ ps c v, KeepsAllBut (ps ++ [.halt]) s (s.takeHalt c v) := fun ps => .takeHalt ps s
  have hskip : ∀ c, KeepsAllBut [.pc, .halt] s (s.skipIf c) :=
    fun c => (s.advance_keeps _).mono (by decide)
  cases i with
  | cls => exact ⟨_, rfl, (s.paint_keeps _).trans (State.advance_keeps _ 2)⟩
  | ret =>
    exact .execRet (hhalt [.stack, .pc]) fun k sp =>
      ((s.withStack_keeps s.stack sp).trans (State.jump_keeps _ s.stack[k.val])).mono
        (List.subset_append_left _ [Part.halt])
  | jp nnn => exact ⟨_, rfl, s.jump_keeps _⟩
  | call nnn =>
    exact .execCall (hhalt [.stack, .pc]) fun k sp =>
      ((s.withStack_keeps _ sp).trans (State.jump_keeps _ (addrOperand nnn))).mono
        (List.subset_append_left _ [Part.halt])
  | seImm x nn | sneImm x nn => exact ⟨_, rfl, s.advance_keeps _⟩
  | seReg x y | sneReg x y => exact ⟨_, rfl, s.advance_keeps _⟩
  | skp x => exact .execSkp (hhalt [.pc]) hskip
  | sknp x => exact .execSknp (hhalt [.pc]) hskip
  | addReg x y | subReg x y | shr x y | subnReg x y | shl x y => exact writeRegFlag_keeps s x _ _
  | rnd x nn =>
    exact ⟨_, rfl, s.drawn_keeps.trans ((State.setReg_keeps _ x _).trans (State.advance_keeps _ 2))⟩
  | ldKey x =>
    exact .execLdKey (.refl _ s) fun v =>
      s.drawn_keeps.trans ((State.setReg_keeps _ x v).trans (State.advance_keeps _ 2))
  | ldIndex nnn | ldFont x => exact ⟨_, rfl, (s.setIndex_keeps _).trans (State.advance_keeps _ 2)⟩
  | addIndex x =>
    exact ⟨_, rfl, (s.setIndex_keeps _).trans
      ((State.setReg_keeps _ Reg.flag _).trans (State.advance_keeps _ 2))⟩
  | ldToDelay x => exact ⟨_, rfl, (s.setDelay_keeps _).trans (State.advance_keeps _ 2)⟩
  | ldToSound x => exact ⟨_, rfl, (s.setSound_keeps _).trans (State.advance_keeps _ 2)⟩
  | ldBcd x | dumpRegs x => exact withAccess_keeps ((s.setMem_keeps _).trans (State.advance_keeps _ 2))
  | fillRegs x => exact withAccess_keeps ((s.setRegsBelow_keeps _ _).trans (State.advance_keeps _ 2))
  | drw x y n =>
    exact withAccess_keeps ((s.paint_keeps _).trans
      ((State.setReg_keeps _ Reg.flag _).trans (State.advance_keeps _ 2)))
  | _ => exact writeReg_keeps s _ _

/-! ### The general registers an instruction may write -/

/-- The general registers that an instruction may write, VF as a side effect included. -/
def WritesReg : Instr → Reg → Prop
  | .ldImm x _, r | .addImm x _, r | .ldReg x _, r | .orReg x _, r | .andReg x _, r | .xorReg x _, r
  | .rnd x _, r | .ldKey x, r | .ldFromDelay x, r => r = x
  | .addReg x _, r | .subReg x _, r | .shr x _, r | .subnReg x _, r | .shl x _, r => r = x ∨ r = Reg.flag
  | .addIndex _, r | .drw _ _ _, r => r = Reg.flag
  | .fillRegs x, r => r ≤ x
  | .cls, _ | .ret, _ | .jp _, _ | .call _, _ | .seImm _ _, _ | .sneImm _ _, _ | .seReg _ _, _
  | .sneReg _ _, _ | .ldIndex _, _ | .skp _, _ | .sknp _, _ | .ldToDelay _, _ | .ldToSound _, _
  | .ldFont _, _ | .ldBcd _, _ | .dumpRegs _, _ => False

theorem writeReg_keepsReg (s : State) (x r : Reg) (v : Byte) (hr : ¬r = x) :
    Ends (writeReg s x v) fun t => t.reg r = s.reg r :=
  ⟨_, rfl, s.reg_setReg_other x r v hr⟩

theorem writeRegFlag_keepsReg (s : State) (x r : Reg) (v : Byte) (b : Bool) (hr : ¬(r = x ∨ r = Reg.flag)) :
    Ends (writeRegFlag s x v b) fun t => t.reg r = s.reg r := by
  obtain ⟨hx, hflag⟩ := not_or.1 hr
  refine ⟨_, rfl, (s.reg_setRegAndFlag x r v b).trans ?_⟩
  rw [if_neg hflag, if_neg hx]

/-- An instruction keeps every general register that it is not listed for. -/
theorem exec_keepsReg (i : Instr) (s : State) (r : Reg) (hr : ¬WritesReg i r) :
    Ends (exec i s) fun t => t.reg r = s.reg r := by
  have hhalt : ∀ c v, (s.takeHalt c v).reg r = s.reg r := fun _ _ => rfl
  cases i with
  | ldImm x nn | addImm x nn | ldFromDelay x => exact writeReg_keepsReg s x r _ hr
  | ldReg x y | orReg x y | andReg x y | xorReg x y => exact writeReg_keepsReg s x r _ hr
  | rnd x nn => exact writeReg_keepsReg s.drawn x r _ hr
  | ldKey x => exact .execLdKey rfl fun v => s.drawn.reg_setReg_other x r v hr
  | addReg x y | subReg x y | shr x y | subnReg x y | shl x y => exact writeRegFlag_keepsReg s x r _ _ hr
  | addIndex x => exact ⟨_, rfl, (s.setIndex _).reg_setReg_other Reg.flag r _ hr⟩
  | drw x y n => exact .withAccess hhalt fun _ => ⟨_, rfl, (s.paint _).reg_setReg_other Reg.flag r _ hr⟩
  | fillRegs x =>
    have hgt : ¬r.val < x.val + 1 := fun hlt => hr (Fin.le_def.2 (Nat.lt_succ_iff.1 hlt))
    exact .withAccess hhalt fun _ => ⟨_, rfl, by simp only [State.reg_advance, State.reg_setRegsBelow, if_neg hgt]⟩
  | ret => exact .execRet hhalt fun _ _ => rfl
  | call nnn => exact .execCall hhalt fun _ _ => rfl
  | skp x => exact .execSkp hhalt fun _ => rfl
  | sknp x => exact .execSknp hhalt fun _ => rfl
  | ldBcd x | dumpRegs x => exact .withAccess hhalt fun _ => ⟨_, rfl, rfl⟩
  | _ => exact ⟨_, rfl, rfl⟩

end Sys2Proof.Machine
end

section
/-! SUPPORT. Noninterference: what an instruction does depends on the general registers that it reads, and on the
place in the stream of free inputs only where it draws from it (10_state.md R10, R12, R23). -/

namespace Sys2Proof.Machine

/-! ### States that agree but for some registers and the draw counter -/

/-- The state with other general registers and another draw counter. -/
def State.withRegsDraws (s : State) (V : Vector Byte 16) (draws : Nat) : State :=
  { s with V := V, draws := draws }

/-- The states agree but in the registers outside `K` and, where `D` does not hold, in the draw counter. -/
structure AgreeOn (K : Reg → Prop) (D : Prop) (s t : State) : Prop where
  rest : t = s.withRegsDraws t.V t.draws
  regs : ∀ r, K r → t.reg r = s.reg r
  draws : D → t.draws = s.draws

/-- Both outcomes are next states, and `R` holds of them. -/
def BothEnd (R : State → State → Prop) (o o' : Result) : Prop := Ends o fun u => Ends o' fun v => R u v

theorem BothEnd.next {R : State → State → Prop} {u v : State} (h : R u v) : BothEnd R (.next u) (.next v) :=
  ⟨u, rfl, v, rfl, h⟩

theorem BothEnd.withAccess {R : State → State → Prop} {s t : State} {a b n : Nat} {k l : Result}
    (hhalt : ∀ c v, R (s.takeHalt c v) (t.takeHalt c v)) (hab : b = a) (hkl : BothEnd R k l) :
    BothEnd R (withAccess s a n k) (withAccess t b n l) := by
  subst hab
  unfold Sys2Proof.Machine.withAccess
  cases accessFault b n with
  | none => exact hkl
  | some bad => exact .next (hhalt _ _)

theorem BothEnd.withKey {R : State → State → Prop} {s t : State} {k l : Byte} {go go' : Bool → Result}
    (hhalt : ∀ c v, R (s.takeHalt c v) (t.takeHalt c v)) (hkl : l = k) (hkey : t.key = s.key)
    (hopcode : t.opcode = s.opcode) (hgo : ∀ b, BothEnd R (go b) (go' b)) :
    BothEnd R (withKey s k go) (withKey t l go') := by
  subst hkl
  unfold Sys2Proof.Machine.withKey
  rw [hkey, hopcode]
  split
  · exact hgo _
  · exact .next (hhalt _ _)

theorem State.pop?_withRegsDraws (s : State) (V : Vector Byte 16) (d : Nat) :
    (s.withRegsDraws V d).pop? = s.pop?.map fun p => (p.1.withRegsDraws V d, p.2) := by
  rcases s.pop_cases with ⟨hsp, e⟩ | ⟨hsp, e⟩ <;> rw [e]
  · exact dif_neg (Nat.not_lt.2 hsp.le)
  · exact dif_pos hsp

theorem State.push?_withRegsDraws (s : State) (V : Vector Byte 16) (d : Nat) (w : Word) :
    (s.withRegsDraws V d).push? w = (s.push? w).map (·.withRegsDraws V d) := by
  rcases s.push_cases w with ⟨hsp, e⟩ | ⟨hsp, e⟩ <;> rw [e]
  · exact dif_neg (Nat.not_lt.2 hsp.ge)
  · exact dif_pos hsp

namespace AgreeOn

variable {K : Reg → Prop} {D : Prop} {s t : State}

/-- An update that passes other registers and another draw counter through keeps the agreement. -/
theorem map (h : AgreeOn K D s t) (f : State → State)
    (hf : ∀ u V d, f (State.withRegsDraws u V d) = (f u).withRegsDraws V d) : AgreeOn K D (f s) (f t) := by
  have hkeep : ∀ u, (f u).V = u.V ∧ (f u).draws = u.draws := fun u =>
    have hfix : f u = (f u).withRegsDraws u.V u.draws := hf u u.V u.draws
    ⟨congrArg (·.V) hfix, congrArg (·.draws) hfix⟩
  have hreg : ∀ u r, (f u).reg r = u.reg r := fun u r => by rw [State.reg, (hkeep u).1, State.reg]
  refine ⟨?_, fun r hr => ?_, fun hd => ?_⟩
  · rw [(hkeep t).1, (hkeep t).2, ← hf, ← h.rest]
  · rw [hreg, hreg, h.regs r hr]
  · rw [(hkeep t).2, (hkeep s).2, h.draws hd]

/-! The two states have the same parts but `V` and `draws`. -/

theorem exists_eq (h : AgreeOn K D s t) : ∃ V d, t = s.withRegsDraws V d := ⟨_, _, h.rest⟩

theorem mem (h : AgreeOn K D s t) : t.mem = s.mem := congrArg (·.mem) h.rest
theorem effAddr (h : AgreeOn K D s t) (n : Nat) : t.effAddr n = s.effAddr n := congrArg (·.effAddr n) h.rest
theorem delay (h : AgreeOn K D s t) : t.delay = s.delay := congrArg (·.delay) h.rest
theorem disp (h : AgreeOn K D s t) : t.disp = s.disp := congrArg (·.disp) h.rest
theorem opcode (h : AgreeOn K D s t) : t.opcode = s.opcode := congrArg (·.opcode) h.rest
theorem key (h : AgreeOn K D s t) : t.key = s.key := congrArg (·.key) h.rest

theorem pickKey (h : AgreeOn K D s t) (hd : D) : t.pickKey = s.pickKey := by
  simp only [State.pickKey, State.pressed, h.key, h.draws hd]

theorem sprite (h : AgreeOn K D s t) (x y : Reg) (n : Nibble) (hx : t.reg x = s.reg x)
    (hy : t.reg y = s.reg y) : t.sprite x y n = s.sprite x y n := by
  simp only [State.sprite, h.mem, h.effAddr, h.disp, hx, hy]

theorem byteAt (h : AgreeOn K D s t) : t.byteAt = s.byteAt := by
  funext n
  rw [State.byteAt, State.byteAt, h.mem, h.effAddr]

/-! The updates, with equal values, keep the agreement. -/

theorem setReg (h : AgreeOn K D s t) (x : Reg) {v w : Byte} (hv : w = v) :
    AgreeOn K D (s.setReg x v) (t.setReg x w) where
  rest := by obtain ⟨V, d, rfl⟩ := h.exists_eq; rfl
  regs r hr := by rw [State.reg_setReg, State.reg_setReg, h.regs r hr, hv]
  draws := h.draws

theorem setRegsBelow (h : AgreeOn K D s t) (n : Nat) {f g : Nat → Byte} (hf : g = f) :
    AgreeOn K D (s.setRegsBelow n f) (t.setRegsBelow n g) where
  rest := by obtain ⟨V, d, rfl⟩ := h.exists_eq; rfl
  regs r hr := by rw [State.reg_setRegsBelow, State.reg_setRegsBelow, h.regs r hr, hf]
  draws := by rw [State.setRegsBelow_draws, State.setRegsBelow_draws]; exact h.draws

theorem drawn (h : AgreeOn K D s t) : AgreeOn K D s.drawn t.drawn where
  rest := by obtain ⟨V, d, rfl⟩ := h.exists_eq; rfl
  regs := h.regs
  draws hd := congrArg (· + 1) (h.draws hd)

theorem advance (h : AgreeOn K D s t) (k : Word) : AgreeOn K D (s.advance k) (t.advance k) :=
  h.map (·.advance k) fun _ _ _ => rfl

theorem takeHalt (h : AgreeOn K D s t) (c : HaltCause) (v : Nat) :
    AgreeOn K D (s.takeHalt c v) (t.takeHalt c v) :=
  h.map (·.takeHalt c v) fun _ _ _ => rfl

theorem setIndex (h : AgreeOn K D s t) {v w : Word} (hv : w = v) : AgreeOn K D (s.setIndex v) (t.setIndex w) :=
  hv ▸ h.map (·.setIndex w) fun _ _ _ => rfl

theorem setMem (h : AgreeOn K D s t) {m m' : Memory} (hm : m' = m) : AgreeOn K D (s.setMem m) (t.setMem m') :=
  hm ▸ h.map (·.setMem m') fun _ _ _ => rfl

theorem setDelay (h : AgreeOn K D s t) {v w : Byte} (hv : w = v) : AgreeOn K D (s.setDelay v) (t.setDelay w) :=
  hv ▸ h.map (·.setDelay w) fun _ _ _ => rfl

theorem setSound (h : AgreeOn K D s t) {v w : Byte} (hv : w = v) : AgreeOn K D (s.setSound v) (t.setSound w) :=
  hv ▸ h.map (·.setSound w) fun _ _ _ => rfl

theorem paint (h : AgreeOn K D s t) {d d' : Display} (hd : d' = d) : AgreeOn K D (s.paint d) (t.paint d') :=
  hd ▸ h.map (·.paint d') fun _ _ _ => rfl

/-! ### The operations that instructions share -/

theorem writeReg (h : AgreeOn K D s t) (x : Reg) {v w : Byte} (hv : w = v) :
    BothEnd (AgreeOn K D) (writeReg s x v) (writeReg t x w) :=
  .next ((h.setReg x hv).advance 2)

theorem writeRegFlag (h : AgreeOn K D s t) (x : Reg) {v w : Byte} {b c : Bool} (hv : w = v) (hb : c = b) :
    BothEnd (AgreeOn K D) (writeRegFlag s x v b) (writeRegFlag t x w c) :=
  .next (((h.setReg x hv).setReg Reg.flag (congrArg flagByte hb)).advance 2)

theorem skipIf (h : AgreeOn K D s t) {c d : Bool} (hc : d = c) :
    BothEnd (AgreeOn K D) (.next (s.skipIf c)) (.next (t.skipIf d)) :=
  hc ▸ .next (h.advance _)

theorem withKey (h : AgreeOn K D s t) {k l : Byte} (hkl : l = k) (c : Bool → Bool) :
    BothEnd (AgreeOn K D) (withKey s k fun down => .next (s.skipIf (c down)))
      (withKey t l fun down => .next (t.skipIf (c down))) :=
  .withKey h.takeHalt hkl h.key h.opcode fun _ => h.skipIf rfl

theorem execRet (h : AgreeOn K D s t) : BothEnd (AgreeOn K D) (execRet s) (execRet t) := by
  obtain ⟨V, d, rfl⟩ := h.exists_eq
  unfold Sys2Proof.Machine.execRet
  rw [State.pop?_withRegsDraws]
  rcases s.pop_cases with ⟨_, e⟩ | ⟨_, e⟩ <;> rw [e]
  · exact .next (h.takeHalt _ _)
  · exact .next (h.map (fun u => { u with sp := _, pc := _ }) fun _ _ _ => rfl)

theorem execCall (h : AgreeOn K D s t) (nnn : Addr12) :
    BothEnd (AgreeOn K D) (execCall nnn s) (execCall nnn t) := by
  obtain ⟨V, d, rfl⟩ := h.exists_eq
  unfold Sys2Proof.Machine.execCall
  rw [State.push?_withRegsDraws]
  rcases s.push_cases (s.pc + 2) with ⟨_, e⟩ | ⟨_, e⟩ <;> rw [show (s.withRegsDraws V d).pc = s.pc from rfl, e]
  · exact .next (h.takeHalt _ _)
  · exact .next (h.map (fun u => { u with stack := _, sp := _, pc := _ }) fun _ _ _ => rfl)

theorem execLdKey (h : AgreeOn K D s t) (hd : D) (x : Reg) :
    BothEnd (AgreeOn K D) (execLdKey x s) (execLdKey x t) := by
  unfold Sys2Proof.Machine.execLdKey
  rw [h.pickKey hd]
  cases s.pickKey with
  | none => exact .next h
  | some k => exact .next ((h.drawn.setReg x rfl).advance 2)

end AgreeOn

/-! ### The registers an instruction reads -/

/-- The general registers whose values an instruction uses. -/
def ReadsReg : Instr → Reg → Prop
  | .seImm x _, r | .sneImm x _, r | .addImm x _, r | .shr x _, r | .shl x _, r | .skp x, r | .sknp x, r
  | .ldToDelay x, r | .ldToSound x, r | .addIndex x, r | .ldFont x, r | .ldBcd x, r => r = x
  | .ldReg _ y, r => r = y
  | .seReg x y, r | .sneReg x y, r | .orReg x y, r | .andReg x y, r | .xorReg x y, r | .addReg x y, r
  | .subReg x y, r | .subnReg x y, r | .drw x y _, r => r = x ∨ r = y
  | .dumpRegs x, r => r ≤ x
  | .cls, _ | .ret, _ | .jp _, _ | .call _, _ | .ldImm _ _, _ | .ldIndex _, _ | .rnd _ _, _ | .ldKey _, _
  | .ldFromDelay _, _ | .fillRegs _, _ => False

theorem State.regsThrough_congr {s t : State} {x : Reg} (h : ∀ r, r ≤ x → t.reg r = s.reg r) :
    t.regsThrough x = s.regsThrough x := by
  refine List.ext_getElem (by simp) fun k hk _ => ?_
  have hkx : k < x.val + 1 := by simpa using hk
  have hreg : t.reg ⟨k, by omega⟩ = s.reg ⟨k, by omega⟩ := h _ (Fin.le_def.2 (Nat.lt_succ_iff.1 hkx))
  simpa [State.regsThrough, State.reg] using hreg

/-- From states that agree in the registers that an instruction reads, and in the draw counter if it draws, it
comes to states that agree as far. -/
theorem exec_agreeOn {K : Reg → Prop} {D : Prop} {s t : State} (i : Instr) (h : AgreeOn K D s t)
    (hK : ∀ r, ReadsReg i r → K r) (hD : Part.draws ∈ writtenParts i → D) :
    BothEnd (AgreeOn K D) (exec i s) (exec i t) := by
  have hreg : ∀ r, ReadsReg i r → t.reg r = s.reg r := fun r hr => h.regs r (hK r hr)
  cases i with
  | cls => exact .next ((h.paint rfl).advance 2)
  | ret => exact h.execRet
  | jp nnn => exact .next (h.map (·.jump (addrOperand nnn)) fun _ _ _ => rfl)
  | call nnn => exact h.execCall nnn
  | seImm x nn | sneImm x nn => exact h.skipIf (by rw [hreg x rfl])
  | seReg x y | sneReg x y => exact h.skipIf (by rw [hreg x (.inl rfl), hreg y (.inr rfl)])
  | ldImm x nn => exact h.writeReg x rfl
  | addImm x nn => exact h.writeReg x (by rw [hreg x rfl])
  | ldReg x y => exact h.writeReg x (hreg y rfl)
  | orReg x y | andReg x y | xorReg x y =>
    exact h.writeReg x (by rw [hreg x (.inl rfl), hreg y (.inr rfl)])
  | addReg x y | subReg x y | subnReg x y =>
    have hx := hreg x (.inl rfl)
    have hy := hreg y (.inr rfl)
    exact h.writeRegFlag x (by rw [hx, hy]) (by rw [hx, hy])
  | shr x y | shl x y => exact h.writeRegFlag x (by rw [hreg x rfl]) (by rw [hreg x rfl])
  | ldIndex nnn => exact .next ((h.setIndex rfl).advance 2)
  | rnd x nn =>
    have hdraws : t.draws = s.draws := h.draws (hD (List.mem_cons_self ..))
    exact h.drawn.writeReg x (by rw [State.randomByte, State.randomByte, hdraws])
  | skp x => exact h.withKey (hreg x rfl) id
  | sknp x => exact h.withKey (hreg x rfl) not
  | ldKey x => exact h.execLdKey (hD (List.mem_cons_self ..)) x
  | ldFromDelay x => exact h.writeReg x h.delay
  | ldToDelay x => exact .next ((h.setDelay (hreg x rfl)).advance 2)
  | ldToSound x => exact .next ((h.setSound (hreg x rfl)).advance 2)
  | addIndex x =>
    have hsum : t.indexSum x = s.indexSum x := congrArg₂ (· + ·) (h.effAddr 0) (congrArg _ (hreg x rfl))
    exact .next (((h.setIndex (by rw [hsum])).setReg Reg.flag (by rw [hsum])).advance 2)
  | ldFont x => exact .next ((h.setIndex (by rw [hreg x rfl])).advance 2)
  | ldBcd x =>
    exact .withAccess h.takeHalt (h.effAddr 0)
      (.next ((h.setMem (by rw [h.mem, h.effAddr, hreg x rfl])).advance 2))
  | dumpRegs x =>
    exact .withAccess h.takeHalt (h.effAddr 0)
      (.next ((h.setMem (by rw [h.mem, h.effAddr, State.regsThrough_congr hreg])).advance 2))
  | fillRegs x => exact .withAccess h.takeHalt (h.effAddr 0) (.next ((h.setRegsBelow _ h.byteAt).advance 2))
  | drw x y n =>
    have hsprite : t.sprite x y n = s.sprite x y n := h.sprite x y n (hreg x (.inl rfl)) (hreg y (.inr rfl))
    exact .withAccess h.takeHalt (h.effAddr 0)
      (.next (((h.paint (by rw [hsprite])).setReg Reg.flag (by rw [hsprite])).advance 2))

/-! ### Where agreement comes from, and what it gives -/

theorem AgreeOn.setReg_flag (s : State) (v : Byte) : AgreeOn (· ≠ Reg.flag) True s (s.setReg Reg.flag v) where
  rest := rfl
  regs r hr := s.reg_setReg_other Reg.flag r v hr
  draws _ := rfl

theorem AgreeOn.keeps {K : Reg → Prop} {s t : State} (h : AgreeOn K True s t) : KeepsAllBut [.regs] s t := by
  obtain ⟨V, d, rfl⟩ := h.exists_eq
  have hd : d = s.draws := h.draws trivial
  intro p hp
  cases p <;> simp_all [Part.Same, State.withRegsDraws]

theorem AgreeOn.of_toArch_eq {s t : State} (h : s.toArch = t.toArch) : AgreeOn (fun _ => True) False s t := by
  obtain ⟨a, d⟩ := s
  obtain ⟨b, e⟩ := t
  cases h
  exact ⟨rfl, fun _ _ => rfl, False.elim⟩

theorem AgreeOn.toArch_eq {D : Prop} {s t : State} (h : AgreeOn (fun _ => True) D s t) : s.toArch = t.toArch := by
  have hV : t.V = s.V := Vector.ext fun k hk => h.regs ⟨k, hk⟩ trivial
  rw [h.rest, hV]
  rfl

end Sys2Proof.Machine
end

section
/-! SUPPORT. The lists of mnemonics of the statements, in terms of what an instruction may write and names. -/

namespace Sys2Proof.Machine

/-- The mnemonics of the instructions that write a part: the "written by" column of 10_state.md R10, with the
halt registers and the draw counter added; pc, which every instruction writes, is left out. -/
def partWriters : Part → List String
  | .memory => ["LD_B__Vx", "LD__I___Vx"]
  | .regs => ["LD_Vx__nn", "ADD_Vx__nn", "LD_Vx__Vy", "OR_Vx__Vy", "AND_Vx__Vy", "XOR_Vx__Vy", "ADD_Vx__Vy",
      "SUB_Vx__Vy", "SHR_Vx", "SUBN_Vx__Vy", "SHL_Vx", "RND_Vx__nn", "LD_Vx___I", "LD_Vx__K", "LD_Vx__DT",
      "DRW_Vx__Vy__n", "ADD_I__Vx"]
  | .index => ["LD_I__nnn", "ADD_I__Vx", "LD_F__Vx"]
  | .stack => ["CALL_nnn", "RET"]
  | .delay => ["LD_DT__Vx"]
  | .sound => ["LD_ST__Vx"]
  | .display | .redraw => ["CLS", "DRW_Vx__Vy__n"]
  | .halt => ["CALL_nnn", "RET", "SKP_Vx", "SKNP_Vx", "DRW_Vx__Vy__n", "LD_B__Vx", "LD__I___Vx", "LD_Vx___I"]
  | .draws => ["RND_Vx__nn", "LD_Vx__K"]
  | .keys | .opcode | .pc => []

theorem mnemonic_mem_partWriters (i : Instr) :
    ∀ p ∈ writtenParts i, p ≠ .pc → i.mnemonic ∈ partWriters p := by
  cases i <;> simp [writtenParts, partWriters, Instr.mnemonic]

/-- An instruction that is not listed for a part keeps it. -/
theorem part_same_of_not_writer {i : Instr} {s t : State} (h : exec i s = .next t) {p : Part} (hpc : p ≠ .pc)
    (hi : i.mnemonic ∉ partWriters p) : p.Same s t :=
  (exec_keeps i s).of_eq_next h p fun hp => hi (mnemonic_mem_partWriters i p hp hpc)

/-- An instruction that writes VF names it, unless it is one of the seven that write it as a side effect. -/
theorem writesReg_flag {i : Instr} (h : WritesReg i Reg.flag) : i.mnemonic ∈ flagWriters ∨ NamesFlag i := by
  cases i with
  | addReg x y | subReg x y | shr x y | subnReg x y | shl x y | addIndex x | drw x y n =>
    exact .inl (by simp [Instr.mnemonic, flagWriters])
  | ldImm x nn | addImm x nn | rnd x nn | ldKey x | ldFromDelay x => exact .inr h.symm
  | ldReg x y | orReg x y | andReg x y | xorReg x y => exact .inr (.inl h.symm)
  | fillRegs x => exact .inr (Fin.last_le_iff.1 h)
  | _ => exact h.elim

/-- An instruction that reads VF names it. -/
theorem namesFlag_of_readsReg {i : Instr} (h : ReadsReg i Reg.flag) : NamesFlag i := by
  cases i with
  | ldReg x y => exact .inr h.symm
  | dumpRegs x => exact Fin.last_le_iff.1 h
  | _ => simp_all [ReadsReg, NamesFlag, eq_comm]

theorem flagByte_eq (b : Bool) : flagByte b = 0 ∨ flagByte b = 1 := by
  cases b <;> decide

/-- A flag writer that completes leaves 0 or 1 in VF. -/
theorem exec_flagWriter (i : Instr) (s : State) (hi : i.mnemonic ∈ flagWriters) :
    Ends (exec i s) fun t => t.halted = false → t.reg Reg.flag = 0 ∨ t.reg Reg.flag = 1 := by
  have hflag : ∀ (u : State) b, (u.setFlag b).reg Reg.flag = 0 ∨ (u.setFlag b).reg Reg.flag = 1 := fun u b => by
    rw [State.setFlag_eq, State.reg_setReg_same]; exact flagByte_eq b
  cases i with
  | addReg x y | subReg x y | shr x y | subnReg x y | shl x y =>
    exact ⟨_, rfl, fun _ => hflag (s.setReg x _) _⟩
  | addIndex x => exact ⟨_, rfl, fun _ => hflag (s.setIndex _) _⟩
  | drw x y n =>
    exact .withAccess (fun _ _ hrun => Bool.noConfusion hrun) fun _ => ⟨_, rfl, fun _ => hflag (s.paint _) _⟩
  | _ => simp [Instr.mnemonic, flagWriters] at hi

end Sys2Proof.Machine
end

section
/-! PROOFS. The statements of 10_state.md. -/

namespace Sys2Proof.Machine

/-- Settles O48: an instruction stores inside memory or not at all, and halts or leaves the halt registers. -/
theorem stepKeepsTheInvariant : Obligations.StepKeepsTheInvariant :=
  fun _ _ hinv h => hinv.step.of_eq_next h

/-- Settles O49: an instruction is fetched at a pc of at most 4094, and from there no pc, new or saved, goes beyond
the bounds. -/
theorem stepKeepsPcBounded : Obligations.StepKeepsPcBounded :=
  fun _ _ hbound h => hbound.step.of_eq_next h

/-- Settles O51: a `host_load` that happens is inside memory, and the other host events write neither memory, nor
the halt registers, nor a pc. -/
theorem everyEventKeepsTheInvariants : Obligations.EveryEventKeepsTheInvariants :=
  event_keeps_invariants

/-- Settles O43: what is written is by the laws of memory and keys, what is kept by the frame of each update. -/
theorem hostEventsDoWhatTheTableSays : Obligations.HostEventsDoWhatTheTableSays := by
  intro loading s
  refine ⟨fun addr byte haddr => ?_, fun addr byte hbroken => ?_, fun k b => ?_, ?_, rfl, rfl, rfl, rfl⟩
  · have hload : loadAllowed true addr = true := (loadAllowed_eq_true true addr).2 ⟨rfl, haddr⟩
    refine ⟨_, if_pos hload, fun a => ?_, s.setMem_keeps _⟩
    exact s.mem.read_write addr a byte
  · have hload : ¬loadAllowed loading addr = true := fun h =>
      have ⟨hl, ha⟩ := (loadAllowed_eq_true loading addr).1 h
      hbroken.elim (fun hf => Bool.noConfusion (hl.symm.trans hf)) (Nat.not_le.2 ha)
    exact if_neg hload
  · refine ⟨_, rfl, fun j => ?_, s.setKey_keeps k b⟩
    simp only [State.setKey_key, Vector.getElem_set, Fin.ext_iff, eq_comm (a := j.val)]
  · exact ⟨_, rfl, rfl, s.clearRedraw_keeps⟩

/-- Settles O44: the registers that an instruction may write hold VF only where it names VF or is a flag writer,
and the flag is the last that a flag writer writes. -/
theorem onlyTheSevenFlagWritersTouchVF : Obligations.OnlyTheSevenFlagWritersTouchVF := by
  intro i s t _ h
  refine ⟨fun hside hname => (exec_keepsReg i s Reg.flag fun hw => ?_).of_eq_next h,
    fun hwriter => (exec_flagWriter i s hwriter).of_eq_next h⟩
  exact (writesReg_flag hw).elim hside hname

/-- Settles O45: the two states agree in every register that the instruction reads, in the draw counter and in
every other part, so the next states agree as far. -/
theorem vfIsReadOnlyWhereNamed : Obligations.VFIsReadOnlyWhereNamed := by
  intro i s t v hname h
  have hread : ∀ r, ReadsReg i r → r ≠ Reg.flag := fun r hr hflag =>
    hname (namesFlag_of_readsReg (hflag ▸ hr))
  obtain ⟨u, hu, hagree⟩ :=
    (exec_agreeOn i (.setReg_flag s v) hread fun _ => trivial).of_eq_next h
  refine ⟨u, hu, fun r hr => hagree.regs r fun hflag => ?_, hagree.keeps⟩
  exact hr (List.mem_singleton.2 hflag)

/-- Settles O46: the parts that an instruction may write are those whose lists hold its mnemonic. -/
theorem eachPartHasItsOwnWriters : Obligations.EachPartHasItsOwnWriters := by
  intro i s t h
  have keeps : ∀ p, p ≠ Part.pc → i.mnemonic ∉ partWriters p → p.Same s t := fun _ => part_same_of_not_writer h
  exact ⟨keeps .memory (by decide), keeps .regs (by decide), keeps .index (by decide), keeps .stack (by decide),
    keeps .delay (by decide), keeps .sound (by decide),
    fun hi => ⟨keeps .display (by decide) hi, keeps .redraw (by decide) hi⟩, keeps .halt (by decide),
    keeps .keys (by decide) List.not_mem_nil, keeps .opcode (by decide) List.not_mem_nil,
    keeps .draws (by decide)⟩

/-- Settles O53: the two states agree in all but the draw counter, and only the two instructions that draw see or
move that. -/
theorem onlyTheTwoFreeInputsSeeTheDrawCounter : Obligations.OnlyTheTwoFreeInputsSeeTheDrawCounter := by
  intro i s t hi harch
  have hdraws : ∀ w w', exec i w = .next w' → w'.draws = w.draws := fun _ _ h =>
    part_same_of_not_writer h (p := .draws) (by decide) hi
  obtain ⟨u, hu, v, hv, hagree⟩ := exec_agreeOn i (.of_toArch_eq harch) (fun _ _ => trivial) fun hd =>
    hi (mnemonic_mem_partWriters i .draws hd (by decide))
  exact ⟨u, hu, v, hv, hagree.toArch_eq, hdraws s u hu, hdraws t v hv⟩

/-- Settles O41: the reset state is itself what a `reset` event leaves, so one look at such a state does for both. -/
theorem resetLeavesTheValuesOfTheTable : Obligations.ResetLeavesTheValuesOfTheTable := by
  intro loading s
  refine ⟨s.resetEvent, rfl, fun u hu => ?_⟩
  obtain ⟨w, rfl⟩ : ∃ w : State, u = w.resetEvent := by
    rcases List.mem_pair.1 hu with rfl | rfl
    · exact ⟨s, rfl⟩
    · exact ⟨State.reset, rfl⟩
  exact ⟨fun _ => rfl, fun _ => Vector.getElem_replicate _, rfl, rfl, fun _ => Vector.getElem_replicate _, rfl, rfl,
    rfl, Display.cell_clear, rfl, fun _ => Vector.getElem_replicate _, rfl, rfl, rfl, rfl⟩

/-- Settles O47: the reset state is what a `reset` event leaves, up to the draw counter. -/
theorem resetMeetsTheInvariants : Obligations.ResetMeetsTheInvariants :=
  resetEvent_meets_invariants State.reset

end Sys2Proof.Machine
end

section
/-! SUPPORT. What a register dump stores, and what a step runs when the word at pc is known
(42_index_and_memory.md R94, 40_cycle_and_control_flow.md R60). -/

namespace Sys2Proof.Machine

/-- An access set inside memory leaves the instruction to do what it does (20_memory.md R32). -/
theorem withAccess_of_inside (s : State) {a n : Nat} (k : Result) (h : a + n ≤ 4096) :
    withAccess s a n k = k := by
  rcases withAccess_cases s a n k with ⟨_, e⟩ | ⟨_, hout, _⟩
  · exact e
  · omega

theorem State.getElem?_regsThrough (s : State) {x k : Reg} (hk : k.val ≤ x.val) :
    (s.regsThrough x)[k.val]? = some (s.reg k) := by
  simp [State.regsThrough, State.reg, Nat.lt_succ_iff.2 hk]

/-- A dump inside memory completes, with register `k` at `I + k`. -/
theorem exec_dumpRegs_stores (x : Reg) (s : State) (hin : s.I.toNat + x.val ≤ 4095) :
    Ends (exec (.dumpRegs x) s) fun t =>
      ∀ k : Reg, k.val ≤ x.val → t.mem.read (s.I.toNat + k.val) = s.reg k := by
  refine ⟨_, withAccess_of_inside s _ (Nat.succ_le_succ hin), fun k hk => ?_⟩
  show (s.mem.writeBytes s.I.toNat (s.regsThrough x)).read (s.I.toNat + k.val) = s.reg k
  rw [Memory.read_writeBytes, if_pos (Nat.le_add_right ..), Nat.add_sub_cancel_left,
    s.getElem?_regsThrough hk, Option.getD_some]

/-- A running core whose pc is inside memory runs the instruction that the word there decodes to. -/
theorem step_eq_exec {s : State} {i : Instr} (hrun : s.halted = false) (hpc : s.pc.toNat ≤ 4094)
    (hi : decode s.nextWord = .ok i) : step s = exec i (s.latch s.nextWord) := by
  rcases step_cases s with ⟨hhalt, _⟩ | ⟨_, hout, _⟩ | ⟨_, _, herr, _⟩ | ⟨_, _, j, hj, e⟩
  · cases hrun.symm.trans hhalt
  · omega
  · cases hi.symm.trans herr
  · cases hi.symm.trans hj
    exact e

end Sys2Proof.Machine
end

section
/-! PROOFS. The statements of 20_memory.md. -/

namespace Sys2Proof.Machine

/-- Settles O26: the word at pc is made of the two bytes that the dump stored there, and a step reads memory as it
is when it fetches. -/
theorem storedBytesAreFetchedByTheNextStep : Obligations.StoredBytesAreFetchedByTheNextStep := by
  intro x s hin
  obtain ⟨t, ht, hstored⟩ := exec_dumpRegs_stores x s hin
  refine ⟨t, ht, fun k l i hkl hlx hpc hrun hi => ?_⟩
  have hword : t.nextWord = s.reg k ++ s.reg l := by
    rw [State.nextWord, Memory.readWord, hpc, hstored k (by omega), Nat.add_assoc, ← hkl, hstored l hlx]
  rw [← hword] at hi ⊢
  exact step_eq_exec hrun (by omega) hi

end Sys2Proof.Machine
end

section
/-! SUPPORT. The decoder and the encoder undo each other (30_encoding.md R47 to R49): what the decoder reads from
each format, and what each family of the decoder is encoded to. -/

namespace Sys2Proof

/-! ### Decoding what was encoded -/

theorem decode_ofNibbles_of_some {n0 n1 n2 n3 : Nibble} {i : Instr}
    (h : decodeNibbles n0 n1 n2 n3 = some i) : decode (ofNibbles n0 n1 n2 n3) = .ok i :=
  (decode_eq_ok _ i).2 (by simpa using h)

theorem decode_formatA {n0 : Nibble} {c : Addr12 → Instr} (nnn : Addr12)
    (h : ∀ n1 n2 n3, decodeNibbles n0 n1 n2 n3 = some (c (n1 ++ (n2 ++ n3 : Byte)))) :
    decode (formatA n0 nnn) = .ok (c nnn) :=
  decode_ofNibbles_of_some ((h _ _ _).trans (congrArg (some ∘ c) (append_nibbles_addr nnn)))

theorem decode_formatXI {n0 : Nibble} {c : Byte → Instr} (x : Reg) (nn : Byte)
    (h : ∀ n2 n3, decodeNibbles n0 (nibOf x) n2 n3 = some (c (n2 ++ n3))) :
    decode (formatXI n0 x nn) = .ok (c nn) :=
  decode_ofNibbles_of_some ((h _ _).trans (congrArg (some ∘ c) (append_nibbles_byte nn)))

/-- An immediate is put together again from its nibbles; every other field is a nibble of the word as it is. -/
theorem decode_encode (i : Instr) : decode (encode i) = .ok i := by
  cases i with
  | cls | ret => rfl
  | jp nnn | call nnn | ldIndex nnn => exact decode_formatA nnn fun _ _ _ => rfl
  | seImm x nn | sneImm x nn | ldImm x nn | addImm x nn | rnd x nn =>
    exact decode_formatXI x nn fun _ _ => rfl
  | seReg x y | sneReg x y | ldReg x y | orReg x y | andReg x y | xorReg x y | addReg x y | subReg x y
  | shr x y | subnReg x y | shl x y | drw x y n => exact decode_ofNibbles_of_some rfl
  | skp x | sknp x | ldKey x | ldFromDelay x | ldToDelay x | ldToSound x | addIndex x | ldFont x
  | ldBcd x | dumpRegs x | fillRegs x => exact decode_ofNibbles_of_some rfl

/-! ### Encoding what was decoded -/

theorem toNat_append_nibbles (n2 n3 : Nibble) : (n2 ++ n3 : Byte).toNat = n2.toNat * 16 + n3.toNat :=
  toNat_append_eq (n := 4) (m := 4) n2 n3

theorem formatXI_append (n0 n1 n2 n3 : Nibble) :
    formatXI n0 (regOf n1) (n2 ++ n3) = ofNibbles n0 n1 n2 n3 := by
  rw [formatXI, nibOf_regOf, BitVec.extractLsb'_append_eq_left, BitVec.extractLsb'_append_eq_right]

theorem formatX_append (n0 n1 n2 n3 : Nibble) :
    formatX n0 (regOf n1) (n2 ++ n3) = ofNibbles n0 n1 n2 n3 := formatXI_append n0 n1 n2 n3

theorem formatA_append (n0 n1 n2 n3 : Nibble) :
    formatA n0 (n1 ++ (n2 ++ n3 : Byte)) = ofNibbles n0 n1 n2 n3 := by
  apply BitVec.eq_of_toNat_eq
  rw [formatA_eq_ofNat, toNat_ofNibbles, BitVec.toNat_ofNat, toNat_append_eq (n := 4) (m := 8),
    toNat_append_nibbles]
  omega

theorem encode_of_decodeZero {n1 : Nibble} {kk : Byte} {i : Instr} (h : decodeZero n1 kk = some i) :
    encode i = formatX 0x0#4 (regOf n1) kk := by
  unfold decodeZero at h
  split_ifs at h <;> cases h <;> subst n1 kk <;> rfl

theorem encode_of_decodeAlu {x y : Reg} {n3 : Nibble} {i : Instr} (h : decodeAlu x y n3 = some i) :
    encode i = formatXY 0x8#4 x y n3 := by
  unfold decodeAlu at h
  split_ifs at h <;> cases h <;> subst n3 <;> rfl

theorem encode_of_decodeKey {x : Reg} {kk : Byte} {i : Instr} (h : decodeKey x kk = some i) :
    encode i = formatX 0xE#4 x kk := by
  unfold decodeKey at h
  split_ifs at h <;> cases h <;> subst kk <;> rfl

theorem encode_of_decodeMisc {x : Reg} {kk : Byte} {i : Instr} (h : decodeMisc x kk = some i) :
    encode i = formatX 0xF#4 x kk := by
  unfold decodeMisc at h
  split_ifs at h <;> cases h <;> subst kk <;> rfl

theorem encode_of_decodeNibbles {n0 n1 n2 n3 : Nibble} {i : Instr}
    (h : decodeNibbles n0 n1 n2 n3 = some i) : encode i = ofNibbles n0 n1 n2 n3 := by
  match n0 with
  | 0x0#4 => exact (encode_of_decodeZero h).trans (formatX_append ..)
  | 0x1#4 | 0x2#4 | 0xA#4 => cases h; exact formatA_append ..
  | 0x3#4 | 0x4#4 | 0x6#4 | 0x7#4 | 0xC#4 => cases h; exact formatXI_append ..
  | 0x5#4 | 0x9#4 => obtain ⟨rfl, h⟩ := Option.ite_none_right_eq_some.1 h; cases h; rfl
  | 0x8#4 => exact encode_of_decodeAlu h
  | 0xB#4 => cases h
  | 0xD#4 => cases h; rfl
  | 0xE#4 => exact (encode_of_decodeKey h).trans (formatX_append ..)
  | 0xF#4 => exact (encode_of_decodeMisc h).trans (formatX_append ..)

theorem encode_of_decode {w : Word} {i : Instr} (h : decode w = .ok i) : encode i = w :=
  (encode_of_decodeNibbles ((decode_eq_ok w i).1 h)).trans (ofNibbles_nib w)

end Sys2Proof
end

section
/-! SUPPORT. The rows of the opcode map (30_encoding.md R49): every word that a row's mask and match select decodes to
an instruction of that row, and every instruction's word lies in the one row with its mnemonic. -/

namespace Sys2Proof

/-- The nibbles are those of an instruction with the mnemonic. -/
def NibblesDecode (m : String) (n0 n1 n2 n3 : Nibble) : Prop :=
  ∃ i, decodeNibbles n0 n1 n2 n3 = some i ∧ i.mnemonic = m

theorem NibblesDecode.exists_decode {m : String} {w : Word}
    (h : NibblesDecode m (nib0 w) (nib1 w) (nib2 w) (nib3 w)) :
    ∃ i, decode w = .ok i ∧ i.mnemonic = m :=
  have ⟨i, hi, hm⟩ := h
  ⟨i, (decode_eq_ok w i).2 hi, hm⟩

/-- A nibble that the mask keeps whole is the match's. -/
theorem nibble_eq_of_and_eq {w mask p : Word} {k : Nat} (h : w &&& mask = p)
    (hk : mask.extractLsb' k 4 = BitVec.allOnes 4) : w.extractLsb' k 4 = p.extractLsb' k 4 := by
  rw [← h, BitVec.extractLsb'_and, hk, BitVec.and_allOnes]

/-- Every word that the row's mask and match select decodes to an instruction of the row. -/
def OpcodeRow.Decodes (r : OpcodeRow) : Prop :=
  ∀ w : Word, w &&& r.mask = r.pattern → ∃ i, decode w = .ok i ∧ i.mnemonic = r.mnemonic

namespace OpcodeRow.Decodes

variable {m : String} {p : Word}

theorem of_mask_FFFF (h : NibblesDecode m (nib0 p) (nib1 p) (nib2 p) (nib3 p)) :
    Decodes ⟨m, 0xFFFF, p⟩ := by
  intro w (hw : w &&& 0xFFFF#16 = p)
  obtain rfl : w = p := BitVec.and_allOnes.symm.trans hw
  exact h.exists_decode

theorem of_mask_F000 (h : ∀ n1 n2 n3, NibblesDecode m (nib0 p) n1 n2 n3) : Decodes ⟨m, 0xF000, p⟩ := by
  intro w (hw : w &&& 0xF000#16 = p)
  have h0 : nib0 w = nib0 p := nibble_eq_of_and_eq hw rfl
  exact (h0 ▸ h _ _ _).exists_decode

theorem of_mask_F00F (h : ∀ n1 n2, NibblesDecode m (nib0 p) n1 n2 (nib3 p)) : Decodes ⟨m, 0xF00F, p⟩ := by
  intro w (hw : w &&& 0xF00F#16 = p)
  have h0 : nib0 w = nib0 p := nibble_eq_of_and_eq hw rfl
  have h3 : nib3 w = nib3 p := nibble_eq_of_and_eq hw rfl
  exact (h0 ▸ h3 ▸ h _ _).exists_decode

theorem of_mask_F0FF (h : ∀ n1, NibblesDecode m (nib0 p) n1 (nib2 p) (nib3 p)) :
    Decodes ⟨m, 0xF0FF, p⟩ := by
  intro w (hw : w &&& 0xF0FF#16 = p)
  have h0 : nib0 w = nib0 p := nibble_eq_of_and_eq hw rfl
  have h2 : nib2 w = nib2 p := nibble_eq_of_and_eq hw rfl
  have h3 : nib3 w = nib3 p := nibble_eq_of_and_eq hw rfl
  exact (h0 ▸ h2 ▸ h3 ▸ h _).exists_decode

end OpcodeRow.Decodes

/-- The nibbles that a row fixes are all that the decoder branches on before it answers that row's instruction. -/
theorem opcodeMap_decodes : ∀ r ∈ opcodeMap, r.Decodes := by
  simp only [opcodeMap, opcodeMapFlow, opcodeMapAlu, opcodeMapMisc, List.forall_mem_append,
    List.forall_mem_cons]
  refine
    ⟨⟨.of_mask_FFFF ?_, .of_mask_FFFF ?_, .of_mask_F000 ?_, .of_mask_F000 ?_, .of_mask_F000 ?_,
      .of_mask_F000 ?_, .of_mask_F00F ?_, .of_mask_F00F ?_, .of_mask_F000 ?_, .of_mask_F000 ?_,
      List.forall_mem_nil _⟩,
    ⟨.of_mask_F00F ?_, .of_mask_F00F ?_, .of_mask_F00F ?_, .of_mask_F00F ?_, .of_mask_F00F ?_,
      .of_mask_F00F ?_, .of_mask_F00F ?_, .of_mask_F00F ?_, .of_mask_F00F ?_, .of_mask_F000 ?_,
      .of_mask_F000 ?_, List.forall_mem_nil _⟩,
    ⟨.of_mask_F0FF ?_, .of_mask_F0FF ?_, .of_mask_F0FF ?_, .of_mask_F0FF ?_, .of_mask_F0FF ?_,
      .of_mask_F0FF ?_, .of_mask_F0FF ?_, .of_mask_F0FF ?_, .of_mask_F0FF ?_, .of_mask_F0FF ?_,
      .of_mask_F0FF ?_, .of_mask_F000 ?_, List.forall_mem_nil _⟩⟩
  all_goals intros; exact ⟨_, rfl, rfl⟩

theorem exists_row_matches_encode (i : Instr) : Laws.RowOfTheMap.Statement i := by
  cases i with
  | cls => exact Laws.RowOfTheMap.cls
  | ret => exact Laws.RowOfTheMap.ret
  | jp nnn => exact Laws.RowOfTheMap.jp nnn
  | call nnn => exact Laws.RowOfTheMap.call nnn
  | seImm x nn => exact Laws.RowOfTheMap.seImm x nn
  | sneImm x nn => exact Laws.RowOfTheMap.sneImm x nn
  | seReg x y => exact Laws.RowOfTheMap.seReg x y
  | sneReg x y => exact Laws.RowOfTheMap.sneReg x y
  | ldImm x nn => exact Laws.RowOfTheMap.ldImm x nn
  | addImm x nn => exact Laws.RowOfTheMap.addImm x nn
  | ldReg x y => exact Laws.RowOfTheMap.ldReg x y
  | orReg x y => exact Laws.RowOfTheMap.orReg x y
  | andReg x y => exact Laws.RowOfTheMap.andReg x y
  | xorReg x y => exact Laws.RowOfTheMap.xorReg x y
  | addReg x y => exact Laws.RowOfTheMap.addReg x y
  | subReg x y => exact Laws.RowOfTheMap.subReg x y
  | shr x y => exact Laws.RowOfTheMap.shr x y
  | subnReg x y => exact Laws.RowOfTheMap.subnReg x y
  | shl x y => exact Laws.RowOfTheMap.shl x y
  | ldIndex nnn => exact Laws.RowOfTheMap.ldIndex nnn
  | rnd x nn => exact Laws.RowOfTheMap.rnd x nn
  | skp x => exact Laws.RowOfTheMap.skp x
  | sknp x => exact Laws.RowOfTheMap.sknp x
  | ldKey x => exact Laws.RowOfTheMap.ldKey x
  | ldFromDelay x => exact Laws.RowOfTheMap.ldFromDelay x
  | ldToDelay x => exact Laws.RowOfTheMap.ldToDelay x
  | ldToSound x => exact Laws.RowOfTheMap.ldToSound x
  | addIndex x => exact Laws.RowOfTheMap.addIndex x
  | ldFont x => exact Laws.RowOfTheMap.ldFont x
  | ldBcd x => exact Laws.RowOfTheMap.ldBcd x
  | dumpRegs x => exact Laws.RowOfTheMap.dumpRegs x
  | fillRegs x => exact Laws.RowOfTheMap.fillRegs x
  | drw x y n => exact Laws.RowOfTheMap.drw x y n

theorem nodup_mnemonics : (opcodeMap.map OpcodeRow.mnemonic).Nodup := by decide

/-- The row with an instruction's mnemonic selects its word. -/
theorem encode_matches {i : Instr} {r : OpcodeRow} (hr : r ∈ opcodeMap) (hm : i.mnemonic = r.mnemonic) :
    encode i &&& r.mask = r.pattern := by
  obtain ⟨r', hr', hm', hmatch⟩ := exists_row_matches_encode i
  obtain rfl : r' = r := List.inj_on_of_nodup_map nodup_mnemonics hr' hr (hm'.trans hm)
  exact hmatch

end Sys2Proof
end

section
/-! SUPPORT. The table of unknown words (30_encoding.md R51) against the decoder, family by family. -/

namespace Sys2Proof

theorem decode_eq_error (w : Word) :
    decode w = .error (.unknownWord w) ↔ decodeNibbles (nib0 w) (nib1 w) (nib2 w) (nib3 w) = none := by
  unfold decode
  split <;> simp_all

/-! ### What each family does not decode -/

theorem ite_some_eq_none {α : Type} (c : Prop) [Decidable c] (a : α) (o : Option α) :
    (if c then some a else o) = none ↔ ¬c ∧ o = none := by
  split <;> simp [*]

theorem decodeZero_eq_none (n1 : Nibble) (kk : Byte) :
    decodeZero n1 kk = none ↔ n1 = 0x0#4 → kk ≠ 0xE0#8 ∧ kk ≠ 0xEE#8 := by
  simp [decodeZero, ite_some_eq_none]

theorem decodeAlu_eq_none (x y : Reg) (n3 : Nibble) :
    decodeAlu x y n3 = none ↔ n3.toNat ∈ [0x8, 0x9, 0xA, 0xB, 0xC, 0xD, 0xF] := by
  simp only [decodeAlu, ite_some_eq_none, and_true, BitVec.toNat_eq, BitVec.toNat_ofNat, List.mem_cons,
    List.not_mem_nil, or_false]
  omega

theorem decodeKey_eq_none (x : Reg) (kk : Byte) : decodeKey x kk = none ↔ kk.toNat ∉ [0x9E, 0xA1] := by
  simp [decodeKey, ite_some_eq_none, BitVec.toNat_eq]

theorem decodeMisc_eq_none (x : Reg) (kk : Byte) :
    decodeMisc x kk = none ↔ kk.toNat ∉ [0x07, 0x0A, 0x15, 0x18, 0x1E, 0x29, 0x33, 0x55, 0x65] := by
  simp only [decodeMisc, ite_some_eq_none, and_true, BitVec.toNat_eq, BitVec.toNat_ofNat, List.mem_cons,
    List.not_mem_nil, or_false]
  omega

/-! ### The table, by nibbles -/

variable (n0 n1 n2 n3 : Nibble)

theorem toNat_ofNibbles_div : (ofNibbles n0 n1 n2 n3).toNat / 0x1000 = n0.toNat := by
  rw [toNat_ofNibbles]; omega

theorem toNat_ofNibbles_mod_16 : (ofNibbles n0 n1 n2 n3).toNat % 16 = n3.toNat := by
  rw [toNat_ofNibbles]; omega

theorem toNat_ofNibbles_mod_256 : (ofNibbles n0 n1 n2 n3).toNat % 256 = (n2 ++ n3 : Byte).toNat := by
  rw [toNat_ofNibbles, toNat_append_nibbles]; omega

theorem zeroFamily_ofNibbles : UnknownWord.zeroFamily (ofNibbles n0 n1 n2 n3) = true ↔
    n0.toNat = 0 ∧ decodeZero n1 (n2 ++ n3) = none := by
  rw [decodeZero_eq_none]
  simp only [UnknownWord.zeroFamily, decide_eq_true_eq, ne_eq, BitVec.toNat_eq, toNat_ofNibbles,
    toNat_append_nibbles, BitVec.toNat_ofNat]
  omega

theorem alu_ofNibbles : UnknownWord.alu (ofNibbles n0 n1 n2 n3) = true ↔
    n0.toNat = 8 ∧ decodeAlu (regOf n1) (regOf n2) n3 = none := by
  rw [decodeAlu_eq_none, UnknownWord.alu, decide_eq_true_eq, toNat_ofNibbles_div, toNat_ofNibbles_mod_16]

theorem keyFamily_ofNibbles : UnknownWord.keyFamily (ofNibbles n0 n1 n2 n3) = true ↔
    n0.toNat = 0xE ∧ decodeKey (regOf n1) (n2 ++ n3) = none := by
  rw [decodeKey_eq_none, UnknownWord.keyFamily, decide_eq_true_eq, toNat_ofNibbles_div,
    toNat_ofNibbles_mod_256]

theorem miscFamily_ofNibbles : UnknownWord.miscFamily (ofNibbles n0 n1 n2 n3) = true ↔
    n0.toNat = 0xF ∧ decodeMisc (regOf n1) (n2 ++ n3) = none := by
  rw [decodeMisc_eq_none, UnknownWord.miscFamily, decide_eq_true_eq, toNat_ofNibbles_div,
    toNat_ofNibbles_mod_256]

theorem unknownWord_ofNibbles : unknownWord (ofNibbles n0 n1 n2 n3) = true ↔
    (n0.toNat = 0x0 ∧ decodeZero n1 (n2 ++ n3) = none) ∨ (n0.toNat = 0x5 ∧ n3 ≠ 0x0#4) ∨
    (n0.toNat = 0x8 ∧ decodeAlu (regOf n1) (regOf n2) n3 = none) ∨ (n0.toNat = 0x9 ∧ n3 ≠ 0x0#4) ∨
    n0.toNat = 0xB ∨ (n0.toNat = 0xE ∧ decodeKey (regOf n1) (n2 ++ n3) = none) ∨
    (n0.toNat = 0xF ∧ decodeMisc (regOf n1) (n2 ++ n3) = none) := by
  simp only [unknownWord, Bool.or_eq_true, zeroFamily_ofNibbles, alu_ofNibbles, keyFamily_ofNibbles,
    miscFamily_ofNibbles, UnknownWord.skipEqual, UnknownWord.skipNotEqual, UnknownWord.jumpWithOffset,
    decide_eq_true_eq, toNat_ofNibbles_div, toNat_ofNibbles_mod_16, ne_eq, BitVec.toNat_eq, BitVec.toNat_ofNat,
    Nat.zero_mod, or_assoc]

/-- A leading nibble has a row in the table of R51, or all of its words are instructions. -/
theorem leadingNibble_cases {P : Nibble → Prop} (n : Nibble)
    (row : ∀ n ∈ [0x0#4, 0x5#4, 0x8#4, 0x9#4, 0xB#4, 0xE#4, 0xF#4], P n)
    (full : ∀ n ∈ [0x1#4, 0x2#4, 0x3#4, 0x4#4, 0x6#4, 0x7#4, 0xA#4, 0xC#4, 0xD#4], P n) : P n := by
  have hall : ∀ n : Nibble, n ∈ [0x0#4, 0x5#4, 0x8#4, 0x9#4, 0xB#4, 0xE#4, 0xF#4] ∨
      n ∈ [0x1#4, 0x2#4, 0x3#4, 0x4#4, 0x6#4, 0x7#4, 0xA#4, 0xC#4, 0xD#4] := by decide
  exact (hall n).elim (row n) (full n)

theorem unknownWord_ofNibbles_iff :
    unknownWord (ofNibbles n0 n1 n2 n3) = true ↔ decodeNibbles n0 n1 n2 n3 = none := by
  rw [unknownWord_ofNibbles]
  induction n0 using leadingNibble_cases with
  | row n hn => revert n; simp [decodeNibbles]
  | full n hn => revert n; simp [decodeNibbles]

theorem unknownWord_iff_decode_eq_error (w : Word) :
    unknownWord w = true ↔ decode w = .error (.unknownWord w) := by
  rw [decode_eq_error, ← unknownWord_ofNibbles_iff, ofNibbles_nib]

end Sys2Proof
end

section
/-! SUPPORT. The halt registers after a halt, and the step that fetches an unknown word (60_exceptions.md R122,
R128). -/

namespace Sys2Proof.Machine

theorem HaltsWith.takeHalt (s : State) (c : HaltCause) {v : Nat} (hv : v < 2 ^ 16) :
    HaltsWith s (.next (s.takeHalt c v)) c.code v :=
  ⟨_, rfl, rfl, rfl, (BitVec.toNat_ofNat v 16).trans (Nat.mod_eq_of_lt hv), s.takeHalt_keeps c v⟩

/-- The word at pc is known by its two bytes (20_memory.md R33). -/
theorem State.eq_nextWord {s : State} {w : Word}
    (h : w.toNat = 0x100 * (s.mem.read s.pc.toNat).toNat + (s.mem.read (s.pc.toNat + 1)).toNat) :
    w = s.nextWord := by
  apply BitVec.eq_of_toNat_eq
  rw [h, State.nextWord, Memory.readWord, toNat_append_eq (n := 8) (m := 8), Nat.mul_comm]
  rfl

/-- A running core whose pc is inside memory halts at an unknown word there. -/
theorem step_haltsWith_unknownWord {s : State} (hrun : s.halted = false) (hpc : s.pc.toNat ≤ 4094)
    (hw : unknownWord s.nextWord = true) :
    HaltsWith (s.latch s.nextWord) (step s) 1 s.nextWord.toNat := by
  have herr := (unknownWord_iff_decode_eq_error _).1 hw
  rcases step_cases s with ⟨hhalt, _⟩ | ⟨_, hout, _⟩ | ⟨_, _, _, e⟩ | ⟨_, _, i, hi, _⟩
  · cases hrun.symm.trans hhalt
  · omega
  · rw [e]
    exact .takeHalt _ .unknownOpcode s.nextWord.isLt
  · cases herr.symm.trans hi

end Sys2Proof.Machine
end

section
/-! PROOFS. The statements of 30_encoding.md. -/

namespace Sys2Proof.Machine

/-- Settles O4: each format's fields are read back from the nibbles that they were written to. -/
theorem decodeOfEncodeIsTheInstruction : Obligations.DecodeOfEncodeIsTheInstruction :=
  decode_encode

/-- Settles O5: each family of the decoder answers only instructions whose format has the nibbles it looked at. -/
theorem encodeOfDecodeIsTheWord : Obligations.EncodeOfDecodeIsTheWord :=
  fun _ _ => encode_of_decode

/-- Settles O6: a selected word decodes to its row's instruction; a decoded word is its instruction's encoding, which
lies in the one row with the mnemonic. -/
theorem decodeSelectsTheMatchingRow : Obligations.DecodeSelectsTheMatchingRow := by
  refine ⟨rfl, fun w r hr => ⟨opcodeMap_decodes r hr w, fun ⟨i, hi, hm⟩ => ?_⟩⟩
  rw [← encode_of_decode hi]
  exact encode_matches hr hm

/-- Settles O7: the rows of the table are what the families of the decoder leave over, and a step that reads such a
word halts at decode. -/
theorem unknownWordsAreThoseOfTheTableAndHalt : Obligations.UnknownWordsAreThoseOfTheTableAndHalt := by
  refine ⟨unknownWord_iff_decode_eq_error, fun s w hrun hpc hword hunknown => ?_⟩
  obtain rfl := State.eq_nextWord hword
  exact step_haltsWith_unknownWord hrun (by omega) hunknown

/-- Settles O3: each word is the encoding of its instruction. -/
theorem writtenOutWordsDecode : Obligations.WrittenOutWordsDecode :=
  ⟨decode_encode .cls, decode_encode .ret, decode_encode (.jp 0xABC#12), decode_encode (.seImm 0xA 0x5F#8),
    decode_encode (.shr 0x1 0xF), decode_encode (.addReg 0xA 0xB), decode_encode (.ldIndex 0x2F0#12),
    decode_encode (.rnd 0x3 0x0F#8), decode_encode (.drw 0x1 0x2 0xF#4), decode_encode (.skp 0x5),
    decode_encode (.dumpRegs 0x7)⟩

end Sys2Proof.Machine
end

section
/-! SUPPORT. Words that select an instruction or none (30_encoding.md R48, R49), and what a step of a running core
does at each check of the step cycle (40_cycle_and_control_flow.md R60). -/

namespace Sys2Proof.Machine

/-! ### Words -/

/-- An instruction is selected by the number of its word. -/
theorem selects_of_encode {word : Nat} {i : Instr} (h : encode i = BitVec.ofNat 16 word) : Selects word i := by
  rw [Selects, ← h, decode_encode]

/-- Four nibbles that the decoder has no instruction for are a word that selects nothing. -/
theorem selectsNothing_of_decodeNibbles {word : Nat} {n0 n1 n2 n3 : Nibble}
    (h : ofNibbles n0 n1 n2 n3 = BitVec.ofNat 16 word) (hn : decodeNibbles n0 n1 n2 n3 = none) :
    SelectsNothing word := by
  rw [SelectsNothing, ← h, decode_eq_error]
  simpa only [nib0_ofNibbles, nib1_ofNibbles, nib2_ofNibbles, nib3_ofNibbles] using hn

/-- A word that matches no row of the opcode map is unknown, as every instruction's word matches one. -/
theorem unknownWord_of_matches_no_row {w : Word} (h : ∀ r ∈ opcodeMap, w &&& r.mask ≠ r.pattern) :
    unknownWord w = true := by
  rw [unknownWord_iff_decode_eq_error]
  cases hd : decode w with
  | error r => rw [decode_error w r hd]
  | ok i =>
    obtain ⟨r, hr, _, hmatch⟩ := exists_row_matches_encode i
    exact absurd (encode_of_decode hd ▸ hmatch) (h r hr)

/-! ### The checks of the step cycle -/

variable {s : State}

theorem step_of_halted (h : s.halted = true) : step s = .next s := if_pos h

/-- A running core whose fetch would leave memory halts there. -/
theorem step_haltsWith_fetch_beyond_memory (hrun : s.halted = false) (hpc : 4094 < s.pc.toNat) :
    HaltsWith s (step s) 4 (max s.pc.toNat 4096) := by
  rcases step_cases s with ⟨hhalt, _⟩ | ⟨_, _, e⟩ | ⟨_, hin, _⟩ | ⟨_, hin, _⟩
  · cases hrun.symm.trans hhalt
  · rw [e]
    exact .takeHalt s .addressRange (Nat.max_lt.2 ⟨s.pc.isLt, by decide⟩)
  · omega
  · omega

theorem State.latch_keeps (s : State) (w : Word) : KeepsAllBut [.opcode] s (s.latch w) := by
  intro p hp; cases p <;> simp_all [Part.Same]

/-- An instruction that halts a running core is a halt entry and nothing else. -/
theorem exec_haltedFrom {i : Instr} {t : State} (hrun : s.halted = false) (h : exec i s = .next t)
    (hhalt : t.halted = true) : HaltedFrom s t := by
  obtain ⟨u, hu, hcase⟩ := exec_cases i s
  cases hu.symm.trans h
  refine hcase.resolve_right fun ⟨hsame, _⟩ => ?_
  cases hrun.symm.trans (hsame.symm.trans hhalt)

/-- A step that halts a running core is a halt entry, after the latch of the fetched word where the fetch
succeeded. -/
theorem step_haltedFrom {t : State} (hrun : s.halted = false) (h : step s = .next t) (hhalt : t.halted = true) :
    HaltedFrom s t ∨ s.pc.toNat ≤ 4094 ∧ HaltedFrom (s.latch s.nextWord) t := by
  rcases step_cases s with ⟨hs, _⟩ | ⟨_, _, e⟩ | ⟨_, hin, _, e⟩ | ⟨_, hin, i, _, e⟩
  · cases hrun.symm.trans hs
  · cases e.symm.trans h
    exact .inl ⟨_, _, rfl⟩
  · cases e.symm.trans h
    exact .inr ⟨hin, _, _, rfl⟩
  · exact .inr ⟨hin, exec_haltedFrom (s := s.latch s.nextWord) hrun (e.symm.trans h) hhalt⟩

end Sys2Proof.Machine
end

section
/-! SUPPORT. What the control flow instructions answer (40_cycle_and_control_flow.md R61 to R69). -/

namespace Sys2Proof.Machine

variable {s : State}

theorem toNat_addrOperand (nnn : Addr12) : (addrOperand nnn).toNat = nnn.toNat :=
  BitVec.toNat_setWidth_of_le (by decide)

/-! ### CALL and RET -/

theorem State.withStackAndPc_keeps (s : State) (stack : Vector Word 16) (sp : Fin 17) (pc : Word) :
    KeepsAllBut [.pc, .stack] s { s with stack := stack, sp := sp, pc := pc } :=
  ((s.withStack_keeps stack sp).trans (State.jump_keeps _ pc)).mono (by decide)

theorem exec_call_of_room (nnn : Addr12) (h : s.sp.val < 16) :
    exec (.call nnn) s =
      .next { s with stack := s.stack.set s.sp.val (s.pc + 2), sp := ⟨s.sp.val + 1, by omega⟩,
                     pc := addrOperand nnn } := by
  show execCall nnn s = _
  rcases s.push_cases (s.pc + 2) with ⟨hfull, _⟩ | ⟨_, e⟩
  · omega
  · rw [execCall, e]; rfl

theorem exec_call_of_full (nnn : Addr12) (h : s.sp.val = 16) :
    exec (.call nnn) s = .next (s.takeHalt .stackOverflow s.opcode.toNat) := by
  show execCall nnn s = _
  rcases s.push_cases (s.pc + 2) with ⟨_, e⟩ | ⟨hroom, _⟩
  · rw [execCall, e]; rfl
  · omega

theorem exec_ret_of_entry (k : Fin 16) (h : s.sp.val = k.val + 1) :
    exec .ret s = .next { s with sp := k.castSucc, pc := s.stack[k.val] } := by
  have hk : s.sp.val - 1 = k.val := by omega
  show execRet s = _
  rcases s.pop_cases with ⟨hempty, _⟩ | ⟨_, e⟩
  · omega
  · simp only [execRet, e, hk]; rfl

theorem exec_ret_of_empty (h : s.sp.val = 0) :
    exec .ret s = .next (s.takeHalt .stackUnderflow s.opcode.toNat) := by
  show execRet s = _
  rcases s.pop_cases with ⟨_, e⟩ | ⟨hentry, _⟩
  · rw [execRet, e]; rfl
  · omega

/-! ### The skips -/

/-- A skip under a Boolean condition is the skip under what the condition says. -/
theorem Skips.skipIf (s : State) {c : Bool} {p : Prop} (h : c = true ↔ p) : Skips s (.next (s.skipIf c)) p := by
  refine ⟨_, rfl, fun hp => ?_, fun hp => ?_, s.advance_keeps _⟩
  · rw [State.skipIf_eq, if_pos (h.2 hp)]; rfl
  · rw [State.skipIf_eq, if_neg (mt h.1 hp)]; rfl

/-- The families of leading nibble 5 and 9 have an instruction only for last nibble 0. -/
theorem selectsNothing_of_last_nibble {n0 : Nibble} (hn0 : n0 = 0x5#4 ∨ n0 = 0x9#4) (x y : Reg) {k : Fin 16}
    (hk : k ≠ 0) : SelectsNothing (n0.toNat * 0x1000 + 0x100 * x.val + 0x10 * y.val + k.val) := by
  have hnib : nibOf k ≠ 0x0#4 := fun h => hk (congrArg regOf h)
  refine selectsNothing_of_decodeNibbles (formatXYN_eq_ofNat n0 x y (nibOf k)) ?_
  rcases hn0 with rfl | rfl <;> exact if_neg hnib

/-! ### pc after an instruction -/

/-- R61's list, halts included: what `Obligations.PcAdvanceOfEveryInstruction` says of an instruction's answer. -/
def PcListed (i : Instr) (s t : State) : Prop := if t.halted then t.pc = s.pc else PcAfter i s t

theorem PcListed.takeHalt (i : Instr) (s : State) (c : HaltCause) (v : Nat) : PcListed i s (s.takeHalt c v) := by
  rw [PcListed, if_pos (s.takeHalt_halted c v), s.takeHalt_pc c v]

theorem PcListed.of_running {i : Instr} {t : State} (hrun : t.halted = false) (h : PcAfter i s t) :
    PcListed i s t := by
  rwa [PcListed, if_neg (hrun ▸ Bool.false_ne_true)]

/-- The two places a skip can go to. -/
theorem State.skipIf_pc (s : State) (c : Bool) : (s.skipIf c).pc = s.pc + 2 ∨ (s.skipIf c).pc = s.pc + 4 := by
  cases c
  · exact .inl rfl
  · exact .inr rfl

theorem exec_ret_pcListed (hrun : s.halted = false) : Ends (exec .ret s) (PcListed .ret s) := by
  rcases Nat.eq_zero_or_pos s.sp.val with hempty | hentry
  · exact ⟨_, exec_ret_of_empty hempty, .takeHalt ..⟩
  · have hsp : s.sp.val = (⟨s.sp.val - 1, by omega⟩ : Fin 16).val + 1 := (Nat.sub_add_cancel hentry).symm
    exact ⟨_, exec_ret_of_entry _ hsp, .of_running hrun ⟨_, hsp, rfl⟩⟩

/-- LD Vx,K waits exactly while no key is pressed (44_keys_and_timers.md R112). -/
theorem exec_ldKey_pcListed (x : Reg) (hrun : s.halted = false) :
    Ends (exec (.ldKey x) s) (PcListed (.ldKey x) s) := by
  show Ends (execLdKey x s) _
  unfold execLdKey
  cases hpick : s.pickKey with
  | none =>
    have hnone : ¬∃ k : Key, s.key[k.val] = true := by
      simpa only [not_exists, Bool.not_eq_true] using s.pickKey_eq_none.1 hpick
    exact ⟨_, rfl, .of_running hrun (by rw [PcAfter, if_neg hnone])⟩
  | some k =>
    have hsome : ∃ k : Key, s.key[k.val] = true := ⟨k, s.pickKey_pressed k hpick⟩
    exact ⟨_, rfl, .of_running hrun (by rw [PcAfter, if_pos hsome]; rfl)⟩

theorem exec_pcListed (i : Instr) (hrun : s.halted = false) : Ends (exec i s) (PcListed i s) := by
  have hhalt : ∀ c v, PcListed i s (s.takeHalt c v) := .takeHalt i s
  cases i with
  | jp nnn => exact ⟨_, rfl, .of_running hrun (toNat_addrOperand nnn)⟩
  | call nnn => exact .execCall hhalt fun _ _ => .of_running hrun (toNat_addrOperand nnn)
  | ret => exact exec_ret_pcListed hrun
  | seImm x nn | sneImm x nn => exact ⟨_, rfl, .of_running hrun (s.skipIf_pc _)⟩
  | seReg x y | sneReg x y => exact ⟨_, rfl, .of_running hrun (s.skipIf_pc _)⟩
  | skp x => exact .execSkp hhalt fun c => .of_running hrun (s.skipIf_pc c)
  | sknp x => exact .execSknp hhalt fun c => .of_running hrun (s.skipIf_pc c)
  | ldKey x => exact exec_ldKey_pcListed x hrun
  | ldBcd x | dumpRegs x | fillRegs x => exact .withAccess hhalt fun _ => ⟨_, rfl, .of_running hrun rfl⟩
  | drw x y n => exact .withAccess hhalt fun _ => ⟨_, rfl, .of_running hrun rfl⟩
  | _ => exact ⟨_, rfl, .of_running hrun rfl⟩

end Sys2Proof.Machine
end

section
/-! PROOFS. The statements of 40_cycle_and_control_flow.md. -/

namespace Sys2Proof.Machine

/-- Settles O2: the checks are made in the order of R60, and a fetched word either matches no row and is unknown, or
decodes to an instruction of the row it matches. -/
theorem stepFollowsTheCycle : Obligations.StepFollowsTheCycle := by
  refine fun s => ⟨step_of_halted,
    fun hrun hout => step_haltsWith_fetch_beyond_memory hrun (Nat.lt_of_succ_lt_succ hout),
    fun hrun hin w hword => ?_⟩
  obtain rfl := State.eq_nextWord hword
  have hpc : s.pc.toNat ≤ 4094 := Nat.le_of_succ_le_succ hin
  refine ⟨fun hno => step_haltsWith_unknownWord hrun hpc (unknownWord_of_matches_no_row hno),
    fun r hr hmatch => ?_⟩
  obtain ⟨i, hi, hm⟩ := opcodeMap_decodes r hr _ hmatch
  exact ⟨i, hm, encode_of_decode hi, step_eq_exec hrun hpc hi⟩

/-- Settles O15: the push finds room or 16 live entries. -/
theorem callPushesOrOverflows : Obligations.CallPushesOrOverflows := by
  intro nnn s
  refine ⟨selects_of_encode (formatA_eq_ofNat 0x2#4 nnn), fun hroom => ?_, fun hfull => ?_⟩
  · refine ⟨_, exec_call_of_room nnn hroom, toNat_addrOperand nnn, rfl, fun k => ?_,
      s.withStackAndPc_keeps _ _ _⟩
    simp only [Vector.getElem_set, eq_comm]
  · rw [exec_call_of_full nnn hfull]
    exact .takeHalt s .stackOverflow s.opcode.isLt

/-- Settles O16: the pop finds an entry or an empty stack. -/
theorem returnPopsOrUnderflows : Obligations.ReturnPopsOrUnderflows := by
  refine fun s => ⟨decode_encode .ret, fun k hk => ?_, fun hempty => ?_⟩
  · exact ⟨_, exec_ret_of_entry k hk, rfl, rfl, fun _ => rfl, s.withStackAndPc_keeps _ _ _⟩
  · rw [exec_ret_of_empty hempty]
    exact .takeHalt s .stackUnderflow s.opcode.isLt

/-- Settles O17: the entry that the RET pops is the one that the CALL pushed. -/
theorem callThenReturnComesBack : Obligations.CallThenReturnComesBack := fun nnn s hroom =>
  ⟨_, exec_call_of_room nnn hroom, _, exec_ret_of_entry ⟨s.sp.val, hroom⟩ rfl,
    Vector.getElem_set_self _, Fin.ext rfl, fun k hk => Vector.getElem_set_ne hroom k.isLt hk.symm,
    s.withStackAndPc_keeps _ _ _⟩

/-- Settles O18: each skip tests its condition as a Boolean, and the last nibble of 5xy0 and 9xy0 is fixed. -/
theorem skipsOnRegisters : Obligations.SkipsOnRegisters := fun x y nn s =>
  ⟨selects_of_encode (formatXI_eq_ofNat 0x3#4 x nn), .skipIf s beq_iff_eq,
    selects_of_encode (formatXI_eq_ofNat 0x4#4 x nn), .skipIf s bne_iff_ne,
    selects_of_encode (formatXY_eq_ofNat 0x5#4 x y 0x0#4), .skipIf s beq_iff_eq,
    selects_of_encode (formatXY_eq_ofNat 0x9#4 x y 0x0#4), .skipIf s bne_iff_ne,
    fun _ hk => ⟨selectsNothing_of_last_nibble (.inl rfl) x y hk,
      selectsNothing_of_last_nibble (.inr rfl) x y hk⟩⟩

/-- Settles O19: instruction by instruction, a halt leaves pc and every other end is on R61's list. -/
theorem pcAdvanceOfEveryInstruction : Obligations.PcAdvanceOfEveryInstruction :=
  fun i _ _ hrun h => (exec_pcListed i hrun).of_eq_next h

/-- Settles O38: a halt entry writes the halt registers only, and a latch before it `opcode` only. -/
theorem haltsArePrecise : Obligations.HaltsArePrecise := by
  intro s t hrun h hhalt
  rcases step_haltedFrom hrun h hhalt with ⟨c, v, rfl⟩ | ⟨hin, c, v, rfl⟩
  · exact ⟨(s.takeHalt_keeps c v).mono (by decide), fun _ => rfl⟩
  · exact ⟨(s.latch_keeps _).trans (State.takeHalt_keeps _ c v), fun hout => by omega⟩

/-- Settles O1: the word with those two bytes is the one that the step fetches. -/
theorem stepRunsTheDecodedInstruction : Obligations.StepRunsTheDecodedInstruction := by
  intro s w i hrun hin hword hi
  obtain rfl := State.eq_nextWord hword
  exact step_eq_exec hrun (Nat.le_of_succ_le_succ hin) hi

/-- Settles O14: JP is a jump to the address operand. -/
theorem jumpGoesToTheImmediate : Obligations.JumpGoesToTheImmediate := fun nnn s =>
  ⟨selects_of_encode (formatA_eq_ofNat 0x1#4 nnn), _, rfl, toNat_addrOperand nnn, s.jump_keeps _⟩

end Sys2Proof.Machine
end

section
/-! SUPPORT. What the two shapes of register instruction answer, and the results and flags of the ALU as numbers
(41_alu.md R75 to R87). -/

namespace Sys2Proof.Machine

/-! ### The words of leading nibble 8 -/

/-- The word 8xyn, the selector n in its last nibble. -/
theorem selects_of_aluWord (x y : Reg) (n : Nibble) {i : Instr} (h : encode i = formatXY 0x8#4 x y n) :
    Selects (0x8000 + n.toNat + 0x100 * x.val + 0x10 * y.val) i := by
  refine selects_of_encode (h.trans ((formatXY_eq_ofNat 0x8#4 x y n).trans (congrArg _ ?_)))
  show 0x8000 + 0x100 * x.val + 0x10 * y.val + n.toNat = _
  omega

/-! ### The two shapes -/

/-- A result written to `V[x]`: what holds of every state with that value there holds of the answer. -/
theorem WritesRegs.writeReg (s : State) (x : Reg) {v : Byte} {P : State → Prop}
    (h : ∀ t : State, t.reg x = v → P t) : WritesRegs s (writeReg s x v) [x] P :=
  ⟨_, rfl, h _ (s.reg_setReg_same x v), fun r hr => s.reg_setReg_other x r v (List.ne_of_not_mem_cons hr), rfl,
    (writeReg_keeps s x v).of_eq_next rfl⟩

/-- A result and its flag as numbers; with x = F the flag is what remains. -/
theorem WritesRegs.writeRegFlag (s : State) (x : Reg) {v : Byte} {b : Bool} {result flag : Nat}
    (hv : v.toNat = result) (hb : (flagByte b).toNat = flag) :
    WritesRegs s (writeRegFlag s x v b) [x, Reg.flag] fun t =>
      (x ≠ Reg.flag → (t.reg x).toNat = result) ∧ (t.reg Reg.flag).toNat = flag := by
  have hreg := s.reg_setRegAndFlag x (v := v) (b := b)
  refine ⟨_, rfl, ⟨fun hx => ?_, ?_⟩, fun r hr => ?_, rfl, (writeRegFlag_keeps s x v b).of_eq_next rfl⟩
  · rw [State.reg_advance, hreg, if_neg hx, if_pos rfl, hv]
  · rw [State.reg_advance, hreg, if_pos rfl, hb]
  · exact (writeRegFlag_keepsReg s x r v b (by simpa using hr)).of_eq_next rfl

/-! ### Differences and shifts -/

theorem toNat_sub_byte (a b : Byte) : (a - b).toNat = (a.toNat + 256 - b.toNat) % 256 := by
  have hb := b.isLt
  rw [BitVec.toNat_sub, show 2 ^ 8 - b.toNat + a.toNat = a.toNat + 256 - b.toNat by omega]

theorem toNat_shiftRight_one (a : Byte) : (a >>> 1).toNat = a.toNat / 2 := by
  rw [BitVec.toNat_ushiftRight, Nat.shiftRight_eq_div_pow]

theorem toNat_shiftLeft_one (a : Byte) : (a <<< 1).toNat = 2 * a.toNat % 256 := by
  rw [BitVec.toNat_shiftLeft, Nat.shiftLeft_eq, Nat.mul_comm]

/-! ### Flags -/

theorem toNat_flagByte (b : Bool) : (flagByte b).toNat = b.toNat := by
  cases b <;> rfl

theorem toNat_flagByte_decide (p : Prop) [Decidable p] : (flagByte (decide p)).toNat = if p then 1 else 0 := by
  by_cases h : p <;> simp [flagByte, h]

theorem toNat_flagByte_carryOut (a b : Byte) :
    (flagByte (carryOut a b)).toNat = if a.toNat + b.toNat > 255 then 1 else 0 := by
  rw [carryOut, toNat_flagByte_decide]

theorem toNat_flagByte_strictlyBelow (a b : Byte) :
    (flagByte (strictlyBelow a b)).toNat = if b.toNat > a.toNat then 1 else 0 := by
  rw [strictlyBelow, toNat_flagByte_decide]

theorem toNat_flagByte_noBorrow (a b : Byte) :
    (flagByte (noBorrow a b)).toNat = if b.toNat > a.toNat then 0 else 1 := by
  rw [noBorrow, ← decide_not, toNat_flagByte_decide, ite_not]

theorem toNat_flagByte_lowBit (a : Byte) : (flagByte (lowBit a)).toNat = a.toNat % 2 := by
  rw [toNat_flagByte, lowBit, BitVec.getLsbD, Nat.toNat_testBit, Nat.pow_zero, Nat.div_one]

theorem toNat_flagByte_highBit (a : Byte) : (flagByte (highBit a)).toNat = a.toNat / 128 := by
  have ha := a.isLt
  rw [toNat_flagByte, highBit, BitVec.getLsbD, Nat.toNat_testBit]
  omega

end Sys2Proof.Machine
end

section
/-! PROOFS. The statements of 41_alu.md. -/

namespace Sys2Proof.Machine

/-- Settles O8: both write one register; the sum is the byte sum. -/
theorem loadAndAddImmediate : Obligations.LoadAndAddImmediate := fun x nn s =>
  ⟨selects_of_encode (formatXI_eq_ofNat 0x6#4 x nn), .writeReg s x fun _ h => h,
    selects_of_encode (formatXI_eq_ofNat 0x7#4 x nn), .writeReg s x fun _ h => h ▸ BitVec.toNat_add _ _⟩

/-- Settles O9: each writes one register, which is VF only where x = F. -/
theorem copyAndBitwise : Obligations.CopyAndBitwise := fun x y s =>
  ⟨selects_of_aluWord x y 0x0#4 rfl, .writeReg s x fun _ h => h,
    selects_of_aluWord x y 0x1#4 rfl, .writeReg s x fun _ h => h,
    selects_of_aluWord x y 0x2#4 rfl, .writeReg s x fun _ h => h,
    selects_of_aluWord x y 0x3#4 rfl, .writeReg s x fun _ h => h⟩

/-- Settles O10: the byte sum, and the carry of the unbounded sum. -/
theorem addRegistersWithCarry : Obligations.AddRegistersWithCarry := fun x y s =>
  ⟨selects_of_aluWord x y 0x4#4 rfl,
    .writeRegFlag s x (BitVec.toNat_add _ _) (toNat_flagByte_carryOut _ _)⟩

/-- Settles O11: the byte difference either way round; both flags compare V[y] with V[x] strictly. -/
theorem subtractBothWays : Obligations.SubtractBothWays := fun x y s =>
  ⟨selects_of_aluWord x y 0x5#4 rfl,
    .writeRegFlag s x (toNat_sub_byte _ _) (toNat_flagByte_noBorrow _ _),
    selects_of_aluWord x y 0x7#4 rfl,
    .writeRegFlag s x (toNat_sub_byte _ _) (toNat_flagByte_strictlyBelow _ _)⟩

/-- Settles O12: the result is V[x] shifted and the flag is the bit that left it, the y field nowhere in them. -/
theorem shiftsIgnoreTheirSecondField : Obligations.ShiftsIgnoreTheirSecondField := fun x y s =>
  ⟨selects_of_aluWord x y 0x6#4 rfl,
    .writeRegFlag s x (toNat_shiftRight_one _) (toNat_flagByte_lowBit _),
    selects_of_aluWord x y 0xE#4 rfl,
    .writeRegFlag s x (toNat_shiftLeft_one _) (toNat_flagByte_highBit _)⟩

/-- Settles O13: the draw counter moves on, then one register is written. -/
theorem randomByteIsMasked : Obligations.RandomByteIsMasked := by
  refine fun x nn s => ⟨selects_of_encode (formatXI_eq_ofNat 0xC#4 x nn), ?_⟩
  have hwrite : WritesRegs s.drawn (exec (.rnd x nn) s) [x] fun t => t.reg x = Config.rnd s.draws &&& nn :=
    .writeReg s.drawn x fun _ h => h
  obtain ⟨hres, hregs, hpc, _⟩ := Ends.of_eq_next hwrite rfl
  have hkeeps := (exec_keeps (.rnd x nn) s).of_eq_next rfl
  exact ⟨_, rfl, hres, rfl, hregs, hpc,
    hkeeps.mono (show [Part.draws, .regs, .pc] ⊆ [.regs, .pc, .draws] by decide)⟩

end Sys2Proof.Machine
end

section
/-! SUPPORT. The words of leading nibble F, and what the index and memory instructions answer inside memory and
beyond it (42_index_and_memory.md R90 to R95, 60_exceptions.md R125). -/

namespace Sys2Proof.Machine

variable {s : State}

/-- The word Fxkk, the selector kk in its last byte. -/
theorem selects_of_miscWord (x : Reg) (kk : Byte) {i : Instr} (h : encode i = formatX 0xF#4 x kk) :
    Selects (0xF000 + kk.toNat + 0x100 * x.val) i := by
  refine selects_of_encode (h.trans ((formatX_eq_ofNat 0xF#4 x kk).trans (congrArg _ ?_)))
  exact Nat.add_right_comm 0xF000 (0x100 * x.val) kk.toNat

/-! ### Values -/

/-- 5 times a byte fits a word. -/
theorem toNat_glyphAddr (v : Byte) : (glyphAddr v).toNat = 5 * v.toNat := by
  have hv := v.isLt
  rw [glyphAddr, BitVec.toNat_ofNat, Config.glyphBytes, Nat.mod_eq_of_lt (by omega), Nat.mul_comm]

theorem toNat_flagByte_beyondMemory (sum : Nat) :
    (flagByte (beyondMemory sum)).toNat = if sum > 0xFFF then 1 else 0 := by
  rw [beyondMemory, toNat_flagByte_decide]

/-! ### Accesses -/

/-- An access set from I on that leaves memory halts. -/
theorem withAccess_index_haltsWith {n : Nat} (k : Result) (hn : 1 ≤ n) (hout : 4096 < s.I.toNat + n) :
    HaltsWith s (withAccess s (s.effAddr 0) n k) 4 (max s.I.toNat 4096) := by
  rcases withAccess_cases s s.I.toNat n k with ⟨hin, _⟩ | ⟨_, _, e⟩
  · omega
  · exact e ▸ .takeHalt s .addressRange (Nat.max_lt.2 ⟨s.I.isLt, by decide⟩)

/-- The byte of a stored list that stands at an offset is read there. -/
theorem Memory.read_writeBytes_of_getElem? {bs : List Byte} {k : Nat} {v : Byte} (m : Memory) (a : Nat)
    (h : bs[k]? = some v) : (m.writeBytes a bs).read (a + k) = v := by
  rw [Memory.read_writeBytes, if_pos (Nat.le_add_right a k), Nat.add_sub_cancel_left, h, Option.getD_some]

theorem Memory.read_writeBytes_outside {a b : Nat} (m : Memory) (bs : List Byte)
    (h : b < a ∨ a + bs.length ≤ b) : (m.writeBytes a bs).read b = m.read b := by
  rw [Memory.read_writeBytes]
  rcases h with hlow | hhigh
  · exact if_neg (Nat.not_le.2 hlow)
  · rw [List.getElem?_eq_none (Nat.le_sub_of_add_le' hhigh), Option.getD_none, ite_self]

/-- Bytes stored from I on inside memory: each stands at its offset and nothing but them and pc moved. -/
theorem withAccess_writeBytes_of_inside {bs : List Byte} {n : Nat} (hn : bs.length = n) (hin : s.I.toNat + n ≤ 4096) :
    Ends (withAccess s (s.effAddr 0) n (.next ((s.setMem (s.mem.writeBytes (s.effAddr 0) bs)).advance 2))) fun t =>
      (∀ k v, bs[k]? = some v → t.mem.read (s.I.toNat + k) = v) ∧ KeepsMemoryOutside s.I.toNat n s t ∧
        t.pc = s.pc + 2 ∧ KeepsAllBut [.memory, .pc] s t := by
  subst hn
  exact ⟨_, withAccess_of_inside s _ hin, fun _ _ => Memory.read_writeBytes_of_getElem? s.mem _,
    fun _ => Memory.read_writeBytes_outside s.mem bs, rfl, (s.setMem_keeps _).trans (State.advance_keeps _ 2)⟩

/-- A dump inside memory stores registers and moves nothing but their bytes and pc. -/
theorem exec_dumpRegs_of_inside {x : Reg} (hin : s.I.toNat + x.val ≤ 4095) :
    Ends (exec (.dumpRegs x) s) fun t =>
      (∀ k : Reg, k.val ≤ x.val → t.mem.read (s.I.toNat + k.val) = s.reg k) ∧
        KeepsMemoryOutside s.I.toNat (x.val + 1) s t ∧ t.pc = s.pc + 2 ∧ KeepsAllBut [.memory, .pc] s t := by
  obtain ⟨t, ht, hread, hframe⟩ := withAccess_writeBytes_of_inside (s.length_regsThrough x) (Nat.succ_le_succ hin)
  exact ⟨t, ht, fun k hk => hread k.val _ (s.getElem?_regsThrough hk), hframe⟩

/-- A fill inside memory loads registers and moves nothing but them and pc. -/
theorem exec_fillRegs_of_inside {x : Reg} (hin : s.I.toNat + x.val ≤ 4095) :
    Ends (exec (.fillRegs x) s) fun t =>
      (∀ k : Reg, t.reg k = if k.val ≤ x.val then s.mem.read (s.I.toNat + k.val) else s.reg k) ∧
        t.pc = s.pc + 2 ∧ KeepsAllBut [.regs, .pc] s t := by
  refine ⟨_, withAccess_of_inside s _ (Nat.succ_le_succ hin), fun k => ?_, rfl,
    (s.setRegsBelow_keeps _ _).trans (State.advance_keeps _ 2)⟩
  simp only [State.reg_advance, State.reg_setRegsBelow, Nat.lt_succ_iff]
  rfl

end Sys2Proof.Machine
end

section
/-! PROOFS. The statements of 42_index_and_memory.md. -/

namespace Sys2Proof.Machine

/-- Settles O20: both write I only; neither the immediate nor 5 times a byte is cut. -/
theorem loadIndexAndGlyphAddress : Obligations.LoadIndexAndGlyphAddress := fun nnn x s =>
  ⟨selects_of_encode (formatA_eq_ofNat 0xA#4 nnn),
    ⟨_, rfl, toNat_addrOperand nnn, rfl, (exec_keeps (.ldIndex nnn) s).of_eq_next rfl⟩,
    selects_of_miscWord x 0x29#8 rfl,
    ⟨_, rfl, toNat_glyphAddr _, rfl, (exec_keeps (.ldFont x) s).of_eq_next rfl⟩⟩

/-- Settles O21: the sum is taken before the flag is written, and the flag is the last that is. -/
theorem addToIndexSetsTheRangeFlag : Obligations.AddToIndexSetsTheRangeFlag := by
  refine fun x s => ⟨selects_of_miscWord x 0x1E#8 rfl, _, rfl, BitVec.toNat_ofNat _ _, ?_, fun r hr => ?_, rfl, ?_⟩
  · rw [State.reg_advance, State.setFlag_eq, State.reg_setReg_same]
    exact toNat_flagByte_beyondMemory _
  · exact State.reg_setReg_other _ Reg.flag r _ (List.ne_of_not_mem_cons hr)
  · exact ((exec_keeps (.addIndex x) s).of_eq_next rfl).mono
      (show [Part.index, .regs, .pc] ⊆ [.regs, .index, .pc] by decide)

/-- Settles O22: the three digits are stored from I on where there is room for three bytes. -/
theorem bcdStoresThreeDigits : Obligations.BcdStoresThreeDigits := by
  refine fun x s => ⟨selects_of_miscWord x 0x33#8 rfl, fun hin => ?_,
    fun hout => withAccess_index_haltsWith _ (by decide) (Nat.succ_lt_succ hout)⟩
  obtain ⟨t, ht, hread, hframe⟩ :=
    withAccess_writeBytes_of_inside (bs := bcdDigits (s.reg x)) rfl (Nat.succ_le_succ hin)
  have hdigit : ∀ k d : Nat, (bcdDigits (s.reg x))[k]? = some (BitVec.ofNat 8 d) → d < 2 ^ 8 →
      (t.mem.read (s.I.toNat + k)).toNat = d := fun k d hk hd => by
    rw [hread k _ hk, BitVec.toNat_ofNat, Nat.mod_eq_of_lt hd]
  have hbyte := (s.reg x).isLt
  exact ⟨t, ht, hdigit 0 _ rfl (by omega), hdigit 1 _ rfl (by omega), hdigit 2 _ rfl (by omega), hframe⟩

/-- Settles O23: the dump stores where there is room for x + 1 bytes from I on. -/
theorem dumpStoresTheRegisters : Obligations.DumpStoresTheRegisters := fun x _ =>
  ⟨selects_of_miscWord x 0x55#8 rfl, exec_dumpRegs_of_inside,
    fun hout => withAccess_index_haltsWith _ (Nat.succ_pos _) (Nat.succ_lt_succ hout)⟩

/-- Settles O24: the fill loads where there are x + 1 bytes from I on. -/
theorem fillLoadsTheRegisters : Obligations.FillLoadsTheRegisters := fun x _ =>
  ⟨selects_of_miscWord x 0x65#8 rfl, exec_fillRegs_of_inside,
    fun hout => withAccess_index_haltsWith _ (Nat.succ_pos _) (Nat.succ_lt_succ hout)⟩

/-- Settles O25: the fill reads from the same I the bytes that the dump stored there. -/
theorem dumpThenFillRestores : Obligations.DumpThenFillRestores := by
  intro x s hin
  obtain ⟨t, ht, hstored, _, _, hdump⟩ := exec_dumpRegs_of_inside hin
  have htI : t.I = s.I := hdump .index (by decide)
  refine ⟨t, ht, htI, fun u hmem hI => ?_⟩
  have huI : u.I = s.I := hI.trans htI
  obtain ⟨v, hv, hloaded, _, hfill⟩ := exec_fillRegs_of_inside (s := u) (huI ▸ hin)
  have hvI : v.I = u.I := hfill .index (by decide)
  refine ⟨v, hv, fun k hk => ?_, hvI.trans huI⟩
  rw [hloaded, if_pos hk, hmem, huI, hstored k hk]

end Sys2Proof.Machine
end

section
/-! SUPPORT. The closed form of the sprite loops (43_display.md R103 item 3): the pixels of a sprite that are set
are a list of cells without repetition, and drawing inverts each cell of the list once. -/

namespace Sys2Proof.Machine

/-! ### Inverting cells -/

theorem Display.cell_flip_same (d : Display) (q : Fin 64 × Fin 32) :
    (d.flip q.1 q.2).cell q.1 q.2 = !d.cell q.1 q.2 := by
  simp [Display.cell_flip]

theorem Display.cell_flip_other (d : Display) {p q : Fin 64 × Fin 32} (h : p ≠ q) :
    (d.flip q.1 q.2).cell p.1 p.2 = d.cell p.1 p.2 := by
  simp [Display.cell_flip, ← Prod.ext_iff, h]

/-- A cell XORed with 1, a cell that was 1 being a collision: what `drawPixel` does at a set bit. -/
def invertCell (acc : Display × Bool) (q : Fin 64 × Fin 32) : Display × Bool :=
  (acc.1.flip q.1 q.2, acc.2 || acc.1.cell q.1 q.2)

/-- Each of distinct cells is inverted once. -/
theorem foldl_invertCell_cell {cells : List (Fin 64 × Fin 32)} (hnodup : cells.Nodup) (acc : Display × Bool)
    (p : Fin 64 × Fin 32) :
    (cells.foldl invertCell acc).1.cell p.1 p.2 = (acc.1.cell p.1 p.2 ^^ decide (p ∈ cells)) := by
  induction cells generalizing acc with
  | nil => simp
  | cons q cells ih =>
    obtain ⟨hq, hcells⟩ := List.nodup_cons.1 hnodup
    refine (ih hcells (invertCell acc q)).trans ?_
    by_cases hp : p = q
    · subst hp
      simp [invertCell, Display.cell_flip_same, hq]
    · simp [invertCell, Display.cell_flip_other _ hp, hp]

/-- Each of distinct cells is read before it is inverted, so the order of the cells cannot be observed. -/
theorem foldl_invertCell_collision {cells : List (Fin 64 × Fin 32)} (hnodup : cells.Nodup)
    (acc : Display × Bool) :
    (cells.foldl invertCell acc).2 = true ↔ acc.2 = true ∨ ∃ p ∈ cells, acc.1.cell p.1 p.2 = true := by
  induction cells generalizing acc with
  | nil => simp
  | cons q cells ih =>
    obtain ⟨hq, hcells⟩ := List.nodup_cons.1 hnodup
    have hunread : ∀ p ∈ cells, (acc.1.flip q.1 q.2).cell p.1 p.2 = acc.1.cell p.1 p.2 :=
      fun p hp => acc.1.cell_flip_other (ne_of_mem_of_not_mem hp hq)
    have hrest : (∃ p ∈ cells, (acc.1.flip q.1 q.2).cell p.1 p.2 = true) ↔
        ∃ p ∈ cells, acc.1.cell p.1 p.2 = true :=
      exists_congr fun p => and_congr_right fun hp => by rw [hunread p hp]
    refine (ih hcells (invertCell acc q)).trans ?_
    simp only [invertCell, hrest, Bool.or_eq_true, List.exists_mem_cons_iff, or_assoc]

/-! ### The targeted cells -/

/-- The cells that the set bits of `n` rows target, in the order of the loops; row `r` of the sprite is `bytes r`. -/
def spriteCells (bytes : Nat → Byte) (ox oy n : Nat) : List (Fin 64 × Fin 32) :=
  ((List.range n ×ˢ List.range 8).filter fun p => (bytes p.1).getLsbD (7 - p.2)).map fun p =>
    (targetCol ox p.2, targetRow oy p.1)

theorem drawSprite_eq_foldl (m : Memory) (addr ox oy n : Nat) (d : Display) :
    drawSprite m addr ox oy n d =
      (spriteCells (fun r => m.read (addr + r)) ox oy n).foldl invertCell (d, false) := by
  rw [spriteCells, List.foldl_map, List.foldl_filter]
  show _ = ((List.range n).flatMap _).foldl _ _
  simp only [List.foldl_flatMap, List.foldl_map]
  rfl

theorem mem_spriteCells {bytes : Nat → Byte} {ox oy n : Nat} {col : Fin 64} {row : Fin 32} :
    (col, row) ∈ spriteCells bytes ox oy n ↔
      ∃ r c, r < n ∧ c < 8 ∧ (bytes r).getLsbD (7 - c) = true ∧
        col.val = (ox + c) % 64 ∧ row.val = (oy + r) % 32 := by
  simp only [spriteCells, List.mem_map, List.mem_filter, Prod.exists, List.mem_product, List.mem_range,
    Prod.mk.injEq, Fin.ext_iff, targetCol, targetRow, Fin.val_ofNat, and_assoc, eq_comm]

/-- No two pixels of a sprite land on the same cell, as 8 < 64 and n <= 15 < 32. -/
theorem nodup_spriteCells (bytes : Nat → Byte) (ox oy : Nat) {n : Nat} (hn : n ≤ 32) :
    (spriteCells bytes ox oy n).Nodup := by
  refine List.Nodup.map_on ?_ ((List.nodup_range.product List.nodup_range).filter _)
  rintro ⟨r, c⟩ hp ⟨r', c'⟩ hp' heq
  simp only [List.mem_filter, List.mem_product, List.mem_range] at hp hp'
  simp only [Prod.mk.injEq, Fin.ext_iff, targetCol, targetRow, Fin.val_ofNat] at heq ⊢
  omega

/-- The cells that DRW Vx, Vy, n targets. -/
def State.targetCells (s : State) (x y : Reg) (n : Nibble) : List (Fin 64 × Fin 32) :=
  spriteCells s.byteAt (s.reg x).toNat (s.reg y).toNat n.toNat

variable {s : State} {x y : Reg} {n : Nibble}

theorem State.mem_targetCells {col : Fin 64} {row : Fin 32} :
    (col, row) ∈ s.targetCells x y n ↔ Targeted s x y n col row := mem_spriteCells

theorem State.nodup_targetCells : (s.targetCells x y n).Nodup :=
  nodup_spriteCells _ _ _ (by omega)

theorem State.sprite_eq : s.sprite x y n = (s.targetCells x y n).foldl invertCell (s.disp, false) :=
  drawSprite_eq_foldl ..

theorem State.sprite_cell (col : Fin 64) (row : Fin 32) :
    (s.sprite x y n).1.cell col row = (s.disp.cell col row ^^ decide ((col, row) ∈ s.targetCells x y n)) := by
  rw [sprite_eq]
  exact foldl_invertCell_cell nodup_targetCells (s.disp, false) (col, row)

/-- The sprite collides exactly where a targeted cell was 1. -/
theorem State.sprite_collision :
    (s.sprite x y n).2 = true ↔ ∃ col row, Targeted s x y n col row ∧ s.disp.cell col row = true := by
  rw [sprite_eq, foldl_invertCell_collision nodup_targetCells]
  simp only [Bool.false_eq_true, false_or, Prod.exists, mem_targetCells]

/-! ### DRW -/

/-- What DRW Vx, Vy, n leaves where its sprite lies inside memory. -/
structure DrawsSprite (s : State) (x y : Reg) (n : Nibble) (t : State) : Prop where
  inverts : ∀ col row, Targeted s x y n col row → t.disp.cell col row = !s.disp.cell col row
  keeps_cell : ∀ col row, ¬Targeted s x y n col row → t.disp.cell col row = s.disp.cell col row
  /-- VF is the collision flag. -/
  flag : ∃ hit : Bool, t.reg Reg.flag = flagByte hit ∧
    (hit = true ↔ ∃ col row, Targeted s x y n col row ∧ s.disp.cell col row = true)
  keeps_regs : KeepsRegsBut [Reg.flag] s t
  redraws : t.redraw = true
  advances : t.pc = s.pc + 2
  keeps : KeepsAllBut [.regs, .display, .redraw, .pc] s t

/-- What `execDrw` answers once the range check has passed. -/
theorem DrawsSprite.paint_setFlag_advance :
    DrawsSprite s x y n (((s.paint (s.sprite x y n).1).setFlag (s.sprite x y n).2).advance 2) where
  inverts col row h := by
    show (s.sprite x y n).1.cell col row = _
    rw [State.sprite_cell, decide_eq_true (State.mem_targetCells.2 h), Bool.xor_true]
  keeps_cell col row h := by
    show (s.sprite x y n).1.cell col row = _
    rw [State.sprite_cell, decide_eq_false (mt State.mem_targetCells.1 h), Bool.xor_false]
  flag := ⟨_, (s.paint _).reg_setReg_same Reg.flag _, State.sprite_collision⟩
  keeps_regs r hr := (s.paint _).reg_setReg_other Reg.flag r _ (List.ne_of_not_mem_cons hr)
  redraws := rfl
  advances := rfl
  keeps := ((s.paint_keeps _).trans ((State.setReg_keeps _ Reg.flag _).trans (State.advance_keeps _ 2))).mono
    (by decide)

/-- A draw of no row, or of rows inside memory, draws the sprite. -/
theorem exec_drw_of_inside (hin : n.toNat = 0 ∨ s.I.toNat + n.toNat - 1 ≤ 4095) :
    Ends (exec (.drw x y n) s) (DrawsSprite s x y n) := by
  show Ends (withAccess s (s.effAddr 0) n.toNat _) _
  rcases withAccess_cases s s.I.toNat n.toNat _ with ⟨_, e⟩ | ⟨_, hout, _⟩
  · exact ⟨_, e, .paint_setFlag_advance⟩
  · omega

namespace DrawsSprite

variable {t : State} (h : DrawsSprite s x y n t)
include h

theorem flag_eq_one_iff :
    (t.reg Reg.flag).toNat = 1 ↔ ∃ col row, Targeted s x y n col row ∧ s.disp.cell col row = true := by
  obtain ⟨hit, hreg, hhit⟩ := h.flag
  rw [hreg, toNat_flagByte, Bool.toNat_eq_one, hhit]

theorem flag_eq_zero (hclear : ∀ col row, Targeted s x y n col row → s.disp.cell col row = false) :
    t.reg Reg.flag = 0 := by
  obtain ⟨hit, hreg, hhit⟩ := h.flag
  have hmiss : ¬∃ col row, Targeted s x y n col row ∧ s.disp.cell col row = true :=
    fun ⟨col, row, htarget, hone⟩ => Bool.false_ne_true ((hclear col row htarget).symm.trans hone)
  rw [hreg, Bool.eq_false_iff.2 (mt hhit.1 hmiss)]
  rfl

/-- Registers that hold the same origin after the draw target the same cells: DRW moves neither I nor memory. -/
theorem targeted_iff {x' y' : Reg} (hx : t.reg x' = s.reg x) (hy : t.reg y' = s.reg y) (col : Fin 64)
    (row : Fin 32) : Targeted t x' y' n col row ↔ Targeted s x y n col row := by
  have hI : t.I = s.I := h.keeps .index (by decide)
  have hmem : ∀ a, t.mem.read a = s.mem.read a := h.keeps .memory (by decide)
  simp only [Targeted, hI, hmem, hx, hy]

end DrawsSprite

/-- A row of 8 set bits at column 60 of row 0 targets the last 4 and the first 4 columns (R104). -/
theorem targeted_solid_row_iff (hx : (s.reg x).toNat = 60) (hy : (s.reg y).toNat = 0)
    (hbyte : s.mem.read s.I.toNat = 0xFF#8) (col : Fin 64) (row : Fin 32) :
    Targeted s x y 1#4 col row ↔ row.val = 0 ∧ (60 ≤ col.val ∨ col.val < 4) := by
  have hbits : ∀ c < 8, (0xFF#8).getLsbD (7 - c) = true := by decide
  have hcol := col.isLt
  rw [Targeted, hx, hy]
  constructor
  · rintro ⟨r, c, hr, hc, _, hcol, hrow⟩
    have hr : r = 0 := Nat.lt_one_iff.1 hr
    omega
  · rintro ⟨hrow, hedge⟩
    exact ⟨0, (col.val + 4) % 64, by decide, by omega, hbyte ▸ hbits _ (by omega), by omega, by omega⟩

end Sys2Proof.Machine
end

section
/-! PROOFS. The statements of 43_display.md. -/

namespace Sys2Proof.Machine

/-- Settles O28: the display is replaced by the clear one. -/
theorem clearScreenClearsEveryCell : Obligations.ClearScreenClearsEveryCell := fun s =>
  ⟨selects_of_encode (i := .cls) rfl, _, rfl, Display.cell_clear, rfl, rfl, (exec_keeps .cls s).of_eq_next rfl⟩

/-- Settles O29: no two pixels of the sprite land on the same cell, so the loops are their closed form. -/
theorem drawInvertsExactlyTheTargetedCells : Obligations.DrawInvertsExactlyTheTargetedCells := by
  refine fun x y n s => ⟨selects_of_encode (formatXYN_eq_ofNat 0xD#4 x y n), fun hin => ?_,
    fun hn hout => withAccess_index_haltsWith _ hn (by omega)⟩
  obtain ⟨t, ht, hdraw⟩ := exec_drw_of_inside (x := x) (y := y) hin
  exact ⟨t, ht, fun col row => ⟨hdraw.inverts col row, hdraw.keeps_cell col row⟩, hdraw.flag_eq_one_iff.2,
    fun hclear => congrArg BitVec.toNat (hdraw.flag_eq_zero hclear), hdraw.keeps_regs, hdraw.redraws,
    hdraw.advances, hdraw.keeps⟩

/-- Settles O30: the second draw targets the same cells and finds each of them inverted. -/
theorem drawingTwiceRestoresTheDisplay : Obligations.DrawingTwiceRestoresTheDisplay := by
  intro x y x' y' n s hin
  obtain ⟨t, ht, hfirst⟩ := exec_drw_of_inside (x := x) (y := y) hin
  refine ⟨t, ht, fun hx hy => ?_⟩
  have hI : t.I = s.I := hfirst.keeps .index (by decide)
  have htargeted := hfirst.targeted_iff hx hy
  obtain ⟨u, hu, hsecond⟩ := exec_drw_of_inside (s := t) (x := x') (y := y') (hI ▸ hin)
  refine ⟨u, hu, fun col row => ?_, hsecond.flag_eq_one_iff.trans ?_⟩
  · by_cases h : Targeted s x y n col row
    · rw [hsecond.inverts col row ((htargeted col row).2 h), hfirst.inverts col row h, Bool.not_not]
    · rw [hsecond.keeps_cell col row (mt (htargeted col row).1 h), hfirst.keeps_cell col row h]
  · refine exists_congr fun col => exists_congr fun row => ?_
    rw [htargeted]
    exact and_congr_right fun h => by rw [hfirst.inverts col row h, Bool.not_eq_true']

/-- Settles O31: the columns are taken mod 64, and on a clear display the cells that are 1 are the targeted ones. -/
theorem spriteWrapsAtTheRightEdge : Obligations.SpriteWrapsAtTheRightEdge := by
  intro x y s hx hy hI hbyte hclear
  obtain ⟨t, ht, hdraw⟩ := exec_drw_of_inside (s := s) (x := x) (y := y) (n := 1#4) (.inr hI)
  refine ⟨t, ht, fun col row => ?_, hdraw.flag_eq_zero fun col row _ => hclear col row, hdraw.redraws⟩
  rw [← targeted_solid_row_iff hx hy hbyte]
  by_cases h : Targeted s x y 1#4 col row
  · simp [hdraw.inverts col row h, hclear, h]
  · simp [hdraw.keeps_cell col row h, hclear, h]

end Sys2Proof.Machine
end

section
/-! SUPPORT. What the key instructions answer for a key number and beyond (44_keys_and_timers.md R110 to R112,
60_exceptions.md R126), and the sound timer over ticks (60_exceptions.md R133, R134). -/

namespace Sys2Proof.Machine

variable {s : State}

/-! ### Keys -/

/-- The word Exkk, the selector kk in its last byte. -/
theorem selects_of_keyWord (x : Reg) (kk : Byte) {i : Instr} (h : encode i = formatX 0xE#4 x kk) :
    Selects (0xE000 + kk.toNat + 0x100 * x.val) i := by
  refine selects_of_encode (h.trans ((formatX_eq_ofNat 0xE#4 x kk).trans (congrArg _ ?_)))
  exact Nat.add_right_comm 0xE000 (0x100 * x.val) kk.toNat

/-- The number of a key finds that key. -/
theorem withKey_of_key {v : Byte} {k : Key} (h : v.toNat = k.val) (go : Bool → Result) :
    withKey s v go = go s.key[k.val] := by
  simp only [withKey, h, dif_pos k.isLt]

/-- A value above 15 is the number of no key. -/
theorem withKey_haltsWith {v : Byte} (h : 15 < v.toNat) (go : Bool → Result) :
    HaltsWith s (withKey s v go) 5 s.opcode.toNat := by
  rw [withKey, dif_neg (Nat.not_lt.2 h)]
  exact .takeHalt s .keyIndexRange s.opcode.isLt

theorem exec_skp (x : Reg) : exec (.skp x) s = withKey s (s.reg x) fun down => .next (s.skipIf down) := rfl

theorem exec_sknp (x : Reg) : exec (.sknp x) s = withKey s (s.reg x) fun down => .next (s.skipIf !down) := rfl

theorem exec_ldKey_of_pickKey_none {x : Reg} (h : s.pickKey = none) : exec (.ldKey x) s = .next s := by
  show execLdKey x s = _
  rw [execLdKey, h]

theorem exec_ldKey_of_pickKey_some {x : Reg} {k : Key} (h : s.pickKey = some k) :
    exec (.ldKey x) s = .next ((s.drawn.setReg x (BitVec.ofNat 8 k.val)).advance 2) := by
  show execLdKey x s = _
  rw [execLdKey, h]

/-! ### Timers -/

theorem toNat_countDown (c : Byte) : (countDown c).toNat = c.toNat - 1 := by
  unfold countDown
  split
  case isTrue hzero => rw [hzero]; rfl
  case isFalse hpos => bv_omega

/-- A tick beeps exactly when it takes `sound` from 2 to 1. -/
theorem State.beep_eq_true_iff : s.beep = true ↔ s.sound.toNat = 2 := by
  rw [State.beep, Bool.and_eq_true, bne_iff_ne, beq_iff_eq, ← BitVec.toNat_inj, toNat_countDown]
  bv_omega

theorem toNat_sound_ticks (j : Nat) (s : State) : (ticks j s).sound.toNat = s.sound.toNat - j := by
  induction j generalizing s with
  | zero => rfl
  | succ j ih =>
    rw [ticks, ih, State.tick_eq, State.setSound_sound, toNat_countDown]
    omega

end Sys2Proof.Machine
end

section
/-! PROOFS. The statements of 44_keys_and_timers.md. -/

namespace Sys2Proof.Machine

/-- Settles O32: the value of V[x] is the number of a key or of none, and the test of the key is a skip. -/
theorem keySkipsTestTheKeyNumbered : Obligations.KeySkipsTestTheKeyNumbered := by
  intro x s
  rw [exec_skp, exec_sknp]
  refine ⟨selects_of_keyWord x 0x9E#8 rfl, selects_of_keyWord x 0xA1#8 rfl, fun k hk => ?_,
    fun hout => ⟨withKey_haltsWith hout _, withKey_haltsWith hout _⟩⟩
  rw [withKey_of_key hk, withKey_of_key hk]
  exact ⟨.skipIf s Iff.rfl, .skipIf s (Bool.not_eq_true' _).to_iff⟩

/-- Settles O33: a key is picked exactly when one is pressed, and only a pressed one; its number fits a byte. -/
theorem keyWaitStoresAPressedKeyOrWaits : Obligations.KeyWaitStoresAPressedKeyOrWaits := by
  refine fun x s => ⟨selects_of_miscWord x 0x0A#8 rfl,
    fun hnone => exec_ldKey_of_pickKey_none (s.pickKey_eq_none.2 hnone), fun ⟨j, hj⟩ => ?_⟩
  cases hpick : s.pickKey with
  | none => cases hj.symm.trans (s.pickKey_eq_none.1 hpick j)
  | some k =>
    have hexec := exec_ldKey_of_pickKey_some (x := x) hpick
    have hkeeps := (exec_keeps (.ldKey x) s).of_eq_next hexec
    have hnumber : (BitVec.ofNat 8 k.val).toNat = k.val := Nat.mod_eq_of_lt (k.isLt.trans (by decide))
    refine ⟨_, hexec, ⟨k, s.pickKey_pressed k hpick, ?_⟩, fun r hr => ?_, rfl,
      hkeeps.mono (show [Part.draws, .regs, .pc] ⊆ [.regs, .pc, .draws] by decide)⟩
    · rw [State.reg_advance, State.reg_setReg_same, hnumber]
    · exact State.reg_setReg_other _ x r _ (List.ne_of_not_mem_cons hr)

/-- Settles O34: one register or one timer is written. -/
theorem timerAccess : Obligations.TimerAccess := fun x s =>
  ⟨selects_of_miscWord x 0x07#8 rfl, .writeReg s x fun _ h => h,
    selects_of_miscWord x 0x15#8 rfl, ⟨_, rfl, rfl, rfl, (exec_keeps (.ldToDelay x) s).of_eq_next rfl⟩,
    selects_of_miscWord x 0x18#8 rfl, ⟨_, rfl, rfl, rfl, (exec_keeps (.ldToSound x) s).of_eq_next rfl⟩⟩

/-- Settles O35: after j ticks the timer holds v - j, which is the 2 that the next tick beeps at only for
j + 2 = v. -/
theorem soundWriteBeepsOnce : Obligations.SoundWriteBeepsOnce := by
  refine fun x s => ⟨(s.setSound (s.reg x)).advance 2, rfl, fun j => ?_⟩
  rw [State.beep_eq_true_iff, toNat_sound_ticks, State.advance_sound, State.setSound_sound]
  omega

end Sys2Proof.Machine
end

section
/-! SUPPORT. The address-range cause: which instructions can put it, and where (60_exceptions.md R125). -/

namespace Sys2Proof.Machine

/-- The address-range cause stands in the halt registers after only if it stood there before. -/
def NoNewRangeCause (s t : State) : Prop := t.haltCause = 4 → s.haltCause = 4

variable {s : State}

theorem NoNewRangeCause.takeHalt {c : HaltCause} (hc : c ≠ .addressRange) (v : Nat) :
    NoNewRangeCause s (s.takeHalt c v) := by
  intro h
  cases c with
  | addressRange => exact absurd rfl hc
  | _ => cases h

theorem NoNewRangeCause.of_keeps {ps : List Part} {t : State} (h : KeepsAllBut ps s t) (hps : .halt ∉ ps) :
    NoNewRangeCause s t := by
  obtain ⟨_, hcause, _⟩ := h .halt hps
  exact hcause.symm.trans

theorem exec_ret_noNewRangeCause : Ends (exec .ret s) (NoNewRangeCause s) := by
  rcases Nat.eq_zero_or_pos s.sp.val with hempty | hentry
  · exact ⟨_, exec_ret_of_empty hempty, .takeHalt (by decide) _⟩
  · exact ⟨_, exec_ret_of_entry ⟨s.sp.val - 1, by omega⟩ (Nat.sub_add_cancel hentry).symm, id⟩

theorem exec_call_noNewRangeCause (nnn : Addr12) : Ends (exec (.call nnn) s) (NoNewRangeCause s) := by
  rcases Nat.lt_or_eq_of_le (Nat.le_of_lt_succ s.sp.isLt) with hroom | hfull
  · exact ⟨_, exec_call_of_room nnn hroom, id⟩
  · exact ⟨_, exec_call_of_full nnn hfull, .takeHalt (by decide) _⟩

theorem withKey_skipIf_noNewRangeCause (v : Byte) (c : Bool → Bool) :
    Ends (withKey s v fun down => .next (s.skipIf (c down))) (NoNewRangeCause s) := by
  by_cases hv : v.toNat < 16
  · exact ⟨_, withKey_of_key (k := ⟨v.toNat, hv⟩) rfl _, id⟩
  · exact ⟨_, dif_neg hv, .takeHalt (by decide) _⟩

/-- An instruction other than the four with an access set halts with another cause or not at all. -/
theorem exec_noNewRangeCause (i : Instr)
    (hi : i.mnemonic ∉ ["DRW_Vx__Vy__n", "LD_B__Vx", "LD__I___Vx", "LD_Vx___I"]) :
    Ends (exec i s) (NoNewRangeCause s) := by
  cases i with
  | ret => exact exec_ret_noNewRangeCause
  | call nnn => exact exec_call_noNewRangeCause nnn
  | skp x => exact withKey_skipIf_noNewRangeCause (s.reg x) id
  | sknp x => exact withKey_skipIf_noNewRangeCause (s.reg x) not
  | ldKey x => exact .execLdKey id fun _ => id
  | drw x y n | ldBcd x | dumpRegs x | fillRegs x => simp [Instr.mnemonic] at hi
  | _ => exact ⟨_, rfl, id⟩

/-! The four instructions with an access set, where it lies inside memory. -/

theorem exec_ldBcd_noNewRangeCause {x : Reg} (hin : s.I.toNat + 2 ≤ 4095) :
    Ends (exec (.ldBcd x) s) (NoNewRangeCause s) := by
  obtain ⟨t, ht, _, _, _, hkeeps⟩ :=
    withAccess_writeBytes_of_inside (bs := bcdDigits (s.reg x)) rfl (Nat.succ_le_succ hin)
  exact ⟨t, ht, .of_keeps hkeeps (by decide)⟩

theorem exec_drw_noNewRangeCause {x y : Reg} {n : Nibble} (hin : n.toNat = 0 ∨ s.I.toNat + n.toNat - 1 ≤ 4095) :
    Ends (exec (.drw x y n) s) (NoNewRangeCause s) := by
  obtain ⟨t, ht, hdraw⟩ := exec_drw_of_inside (x := x) (y := y) hin
  exact ⟨t, ht, .of_keeps hdraw.keeps (by decide)⟩

theorem exec_dumpRegs_noNewRangeCause {x : Reg} (hin : s.I.toNat + x.val ≤ 4095) :
    Ends (exec (.dumpRegs x) s) (NoNewRangeCause s) := by
  obtain ⟨t, ht, _, _, _, hkeeps⟩ := exec_dumpRegs_of_inside hin
  exact ⟨t, ht, .of_keeps hkeeps (by decide)⟩

theorem exec_fillRegs_noNewRangeCause {x : Reg} (hin : s.I.toNat + x.val ≤ 4095) :
    Ends (exec (.fillRegs x) s) (NoNewRangeCause s) := by
  obtain ⟨t, ht, _, _, hkeeps⟩ := exec_fillRegs_of_inside hin
  exact ⟨t, ht, .of_keeps hkeeps (by decide)⟩

end Sys2Proof.Machine
end

section
/-! SUPPORT. What a halted core keeps, and what a tick does (60_exceptions.md R129, R133, R134). -/

namespace Sys2Proof.Machine

variable {s t : State}

/-- A halt keeps `halted` set, and an instruction that completes leaves it alone. -/
theorem exec_keeps_halted {i : Instr} (hs : s.halted = true) (h : exec i s = .next t) : t.halted = true := by
  obtain ⟨u, hu, hcase⟩ := exec_cases i s
  cases hu.symm.trans h
  rcases hcase with ⟨c, v, rfl⟩ | ⟨hsame, _⟩
  · rfl
  · exact hsame.trans hs

/-- No event but `reset` touches the halt registers of a halted core. -/
theorem event_sameHalt {loading : Bool} {e : Event} (hs : s.halted = true) (he : e ≠ .reset)
    (h : event loading e s = .next t) : SameHalt s t := by
  cases e with
  | reset => exact absurd rfl he
  | step =>
    cases (step_of_halted hs).symm.trans h
    exact ⟨rfl, rfl, rfl⟩
  | hostLoad addr byte =>
    rw [event] at h
    split at h
    · cases h
      exact ⟨rfl, rfl, rfl⟩
    · cases h
  | _ =>
    cases h
    exact ⟨rfl, rfl, rfl⟩

theorem State.toNat_delay_tick (s : State) : s.tick.delay.toNat = s.delay.toNat - 1 := toNat_countDown s.delay

theorem State.toNat_sound_tick (s : State) : s.tick.sound.toNat = s.sound.toNat - 1 := toNat_countDown s.sound

theorem State.tick_keeps (s : State) : KeepsAllBut [.delay, .sound] s s.tick :=
  (s.setDelay_keeps _).trans (State.setSound_keeps _ _)

/-- A tick outputs the beep of any condition that says that `sound` is 2. -/
theorem output_tick_eq_beep {p : Prop} [Decidable p] (h : p ↔ s.sound.toNat = 2) :
    output .tick s = .beep (decide p) := by
  refine congrArg Output.beep (Bool.eq_iff_iff.2 ?_)
  rw [State.beep_eq_true_iff, decide_eq_true_iff, h]

end Sys2Proof.Machine
end

section
/-! PROOFS. The statements of 60_exceptions.md. -/

namespace Sys2Proof.Machine

/-- Settles O27: a fetch or an access set that leaves memory halts at its range check; inside memory the four
instructions complete, and the others have no range check. -/
theorem addressRangeHaltsAreTheFive : Obligations.AddressRangeHaltsAreTheFive := by
  refine ⟨fun s hrun hout => ?_, fun x y n s hn hout => ?_, fun x s hout => ?_, fun x s hout => ⟨?_, ?_⟩,
    fun i s t hi => ?_, fun x y n s t hin => ?_, fun x s t hin => ?_, fun x s t hin => ?_⟩
  · exact step_haltsWith_fetch_beyond_memory hrun (Nat.lt_of_succ_lt_succ hout)
  · exact withAccess_index_haltsWith _ hn (by omega)
  · exact withAccess_index_haltsWith _ (by decide) (Nat.succ_lt_succ hout)
  · exact withAccess_index_haltsWith _ (Nat.succ_pos _) (Nat.succ_lt_succ hout)
  · exact withAccess_index_haltsWith _ (Nat.succ_pos _) (Nat.succ_lt_succ hout)
  · exact (exec_noNewRangeCause i hi).of_eq_next
  · exact (exec_drw_noNewRangeCause hin).of_eq_next
  · exact (exec_ldBcd_noNewRangeCause hin).of_eq_next
  · rintro (hdump | hfill)
    · exact (exec_dumpRegs_noNewRangeCause hin).of_eq_next hdump
    · exact (exec_fillRegs_noNewRangeCause hin).of_eq_next hfill

/-- Settles O36: a tick is the two decrements, and it beeps at a `sound` of 2, the one value whose decrement is 1. -/
theorem tickCountsBothTimersDown : Obligations.TickCountsBothTimersDown := by
  refine fun _ s => ⟨s.tick, rfl, s.toNat_delay_tick, s.toNat_sound_tick, output_tick_eq_beep ?_, s.tick_keeps⟩
  rw [s.toNat_sound_tick]
  omega

/-- Settles O37: the decrement takes a `sound` of 2 to 1. -/
theorem tickBeepsOnTwoToOne : Obligations.TickBeepsOnTwoToOne := by
  refine fun s => output_tick_eq_beep ?_
  rw [s.toNat_sound_tick]
  omega

/-- Settles O39: an instruction can only halt again, a step of a halted core runs none, and `reset` puts 0 in the
halt registers. -/
theorem onlyResetLeavesAHalt : Obligations.OnlyResetLeavesAHalt := by
  refine ⟨fun _ _ _ => exec_keeps_halted, fun _ _ s t hs he h => ?_, fun _ _ => step_of_halted,
    fun _ s => ⟨s.resetEvent, rfl, rfl, rfl, rfl⟩⟩
  obtain ⟨hhalted, hcause, hvalue⟩ := event_sameHalt hs he h
  exact ⟨hhalted.trans hs, hcause, hvalue⟩

/-- Settles O40: an instruction halts or completes, and so does a step, and both are next states. -/
theorem everyInstructionAnswersANextState : Obligations.EveryInstructionAnswersANextState := by
  refine ⟨fun i s => ?_, step_answers_next⟩
  obtain ⟨t, ht, _⟩ := exec_cases i s
  exact ⟨t, ht⟩

/-- Settles O42: the word at the entry point of empty memory is 0, an unknown word, and the latch of it changes
nothing. -/
theorem unloadedCoreHaltsOnItsFirstStep : Obligations.UnloadedCoreHaltsOnItsFirstStep :=
  step_haltsWith_unknownWord (s := State.reset) rfl (by decide) (by decide)

end Sys2Proof.Machine
end
